-- ==== Sys2Proof/Word.lean ====
section
/-! DEFINITION. The word types of the machine and their plainest arithmetic. -/

namespace Sys2Proof

/-- A byte: one memory cell or one general register (spec/10_state.md R10, R16). -/
abbrev Byte := BitVec 8

/-- A 16-bit word: an opcode, the program counter, the index register, a stack entry. -/
abbrev Word := BitVec 16

/-- A 4-bit opcode field: a register number, a sprite height (spec/30_encoding.md R51). -/
abbrev Nibble := BitVec 4

/-- A 12-bit address immediate `nnn` (spec/30_encoding.md R51). -/
abbrev Addr := BitVec 12

/-- The number of a general register, 0 to 15 (spec/10_state.md R10). -/
abbrev RegNum := BitVec 4

end Sys2Proof
end

