-- ==== Sys2Proof/Syntax.lean ====
section
/-! DEFINITION. The 34 instructions, one constructor per row of spec/opcode_table.json (spec/30_encoding.md R55). -/

namespace Sys2Proof

/-- A decoded instruction with its operand fields. `x` and `y` are register numbers, `n` a sprite height, `nn` a byte
immediate, `nnn` an address immediate (spec/30_encoding.md R51). -/
inductive Instr where
  /-- `00E0` CLS: clear the display (R115). -/
  | cls
  /-- `00EE` RET: pop PC from the call stack (R81). -/
  | ret
  /-- `1nnn` JP nnn (R82). -/
  | jp (nnn : Addr)
  /-- `2nnn` CALL nnn (R83). -/
  | call (nnn : Addr)
  /-- `3xnn` SE Vx, nn: skip if equal (R84). -/
  | seImm (x : RegNum) (nn : Byte)
  /-- `4xnn` SNE Vx, nn: skip if not equal (R85). -/
  | sneImm (x : RegNum) (nn : Byte)
  /-- `5xy0` SE Vx, Vy: skip if registers equal (R86). -/
  | seReg (x y : RegNum)
  /-- `6xnn` LD Vx, nn (R91). -/
  | ldImm (x : RegNum) (nn : Byte)
  /-- `7xnn` ADD Vx, nn, no carry (R92). -/
  | addImm (x : RegNum) (nn : Byte)
  /-- `8xy0` LD Vx, Vy (R93). -/
  | ldReg (x y : RegNum)
  /-- `8xy1` OR Vx, Vy (R94). -/
  | orReg (x y : RegNum)
  /-- `8xy2` AND Vx, Vy (R95). -/
  | andReg (x y : RegNum)
  /-- `8xy3` XOR Vx, Vy (R96). -/
  | xorReg (x y : RegNum)
  /-- `8xy4` ADD Vx, Vy with carry out (R97). -/
  | addReg (x y : RegNum)
  /-- `8xy5` SUB Vx, Vy, VF = no borrow (R98). -/
  | subReg (x y : RegNum)
  /-- `8xy6` SHR Vx; the field `y` is kept but ignored (R99, R58). -/
  | shr (x y : RegNum)
  /-- `8xy7` SUBN Vx, Vy, VF = no borrow (R100). -/
  | subn (x y : RegNum)
  /-- `8xyE` SHL Vx; the field `y` is kept but ignored (R101, R58). -/
  | shl (x y : RegNum)
  /-- `9xy0` SNE Vx, Vy: skip if registers differ (R87). -/
  | sneReg (x y : RegNum)
  /-- `Annn` LD I, nnn (R105). -/
  | ldI (nnn : Addr)
  /-- `Bnnn` JP V0, nnn (R88). -/
  | jpV0 (nnn : Addr)
  /-- `Cxnn` RND Vx, nn (R102). -/
  | rnd (x : RegNum) (nn : Byte)
  /-- `Dxyn` DRW Vx, Vy, n (R116). -/
  | drw (x y : RegNum) (n : Nibble)
  /-- `Ex9E` SKP Vx (R125). -/
  | skp (x : RegNum)
  /-- `ExA1` SKNP Vx (R126). -/
  | sknp (x : RegNum)
  /-- `Fx07` LD Vx, DT (R128). -/
  | ldVxDt (x : RegNum)
  /-- `Fx0A` LD Vx, K: wait for a key (R127). -/
  | ldVxK (x : RegNum)
  /-- `Fx15` LD DT, Vx (R129). -/
  | ldDtVx (x : RegNum)
  /-- `Fx18` LD ST, Vx (R130). -/
  | ldStVx (x : RegNum)
  /-- `Fx1E` ADD I, Vx (R106). -/
  | addI (x : RegNum)
  /-- `Fx29` LD F, Vx: point I at a glyph (R107). -/
  | ldF (x : RegNum)
  /-- `Fx33` LD B, Vx: store decimal digits (R108). -/
  | ldB (x : RegNum)
  /-- `Fx55` LD [I], Vx: store V0 to Vx (R109). -/
  | storeRegs (x : RegNum)
  /-- `Fx65` LD Vx, [I]: load V0 to Vx (R110). -/
  | loadRegs (x : RegNum)
deriving DecidableEq, Repr

end Sys2Proof
end

