-- ==== Sys2Proof/WellFormed.lean ====
section
/-! DEFINITION. Which instructions and which words are well formed.

Every field of `Instr` has exactly the width the encoding gives it and every value of every field is legal
(spec/30_encoding.md R52: "all sixteen values are legal"; R54 (2): "every value of the other 12 bits being legal"), so every
instruction is well formed by its type (log entry 30). What can be ill formed is a WORD: `recognised` says which words are
instructions, in the terms of R54 and R56 and without the decoder. -/

namespace Sys2Proof

/-- Well-formedness of an instruction: one arm per constructor; no field has a forbidden value (spec/30_encoding.md R52). -/
def Instr.wellFormed (i : Instr) : Bool :=
  match i with
  | .cls | .ret => true
  | .jp _ | .call _ | .ldI _ | .jpV0 _ => true
  | .seImm _ _ | .sneImm _ _ | .ldImm _ _ | .addImm _ _ | .rnd _ _ => true
  | .seReg _ _ | .sneReg _ _ | .ldReg _ _ | .orReg _ _ | .andReg _ _ | .xorReg _ _ => true
  | .addReg _ _ | .subReg _ _ | .shr _ _ | .subn _ _ | .shl _ _ => true
  | .drw _ _ _ => true
  | .skp _ | .sknp _ | .ldVxDt _ | .ldVxK _ | .ldDtVx _ | .ldStVx _ => true
  | .addI _ | .ldF _ | .ldB _ | .storeRegs _ | .loadRegs _ => true

/-- The low bytes that are instructions in family 0xF (spec/30_encoding.md R54 (7)). -/
def familyFLowBytes : List Nat := [0x07, 0x0A, 0x15, 0x18, 0x1E, 0x29, 0x33, 0x55, 0x65]

/-- The low nibbles that are instructions in family 0x8 (spec/30_encoding.md R54 (5)). -/
def family8LowNibbles : List Nat := [0, 1, 2, 3, 4, 5, 6, 7, 0xE]

/-- Is the word an instruction? By family number and low digits, as spec/30_encoding.md R54 (2) to (8) lists them; the words
it refuses are those of R56. -/
def recognised (op : Word) : Bool :=
  let family := op.toNat / 0x1000
  let n := op.toNat % 0x10
  let nn := op.toNat % 0x100
  if family = 0x0 then op.toNat = 0x00E0 || op.toNat = 0x00EE
  else if family = 0x5 ∨ family = 0x9 then n = 0
  else if family = 0x8 then family8LowNibbles.contains n
  else if family = 0xE then nn = 0x9E || nn = 0xA1
  else if family = 0xF then familyFLowBytes.contains nn
  else true

end Sys2Proof
end

