-- ==== Sys2Proof/Decode.lean ====
section
/-! DEFINITION. The decoder of spec/30_encoding.md R54, total on any bytes and rejecting by name, the encoder written from
the same table (R55), and the opcode map itself as rows of mask and match. -/

namespace Sys2Proof

/-- Why bytes are no instruction. -/
inductive DecodeReject where
  /-- Fewer than two bytes: an instruction is one 16-bit word (R50). Safe: the fetch never hands over fewer (R71). -/
  | truncated
  /-- The word matches no row of the opcode map (R56). Not a fault: the step reports it and goes on (R74). -/
  | unrecognised (op : Word)
deriving DecidableEq, Repr

/-! Fields of the opcode word (R51). -/

/-- `family` = op[15:12]. -/
def fieldFamily (op : Word) : Nibble := op.extractLsb' 12 4
/-- `x` = op[11:8]. -/
def fieldX (op : Word) : RegNum := op.extractLsb' 8 4
/-- `y` = op[7:4]. -/
def fieldY (op : Word) : RegNum := op.extractLsb' 4 4
/-- `n` = op[3:0]. -/
def fieldN (op : Word) : Nibble := op.extractLsb' 0 4
/-- `nn` = op[7:0]. -/
def fieldNn (op : Word) : Byte := op.extractLsb' 0 8
/-- `nnn` = op[11:0]. -/
def fieldNnn (op : Word) : Addr := op.extractLsb' 0 12

/-- The opcode of two bytes: big-endian, the byte at the lower address is bits 15 to 8 (spec/20_memory.md R33). -/
def wordOfBytes (hi lo : Byte) : Word := hi ++ lo

/-- Family 0x0: only the two whole words 0x00E0 and 0x00EE (R54 (3)). -/
def decodeFamily0 (op : Word) : Except DecodeReject Instr :=
  if op = 0x00E0#16 then .ok .cls
  else if op = 0x00EE#16 then .ok .ret
  else .error (.unrecognised op)

/-- Family 0x8: nine operations selected by the low nibble (R54 (5)). -/
def decodeFamily8 (op : Word) : Except DecodeReject Instr :=
  if fieldN op = 0x0#4 then .ok (.ldReg (fieldX op) (fieldY op))
  else if fieldN op = 0x1#4 then .ok (.orReg (fieldX op) (fieldY op))
  else if fieldN op = 0x2#4 then .ok (.andReg (fieldX op) (fieldY op))
  else if fieldN op = 0x3#4 then .ok (.xorReg (fieldX op) (fieldY op))
  else if fieldN op = 0x4#4 then .ok (.addReg (fieldX op) (fieldY op))
  else if fieldN op = 0x5#4 then .ok (.subReg (fieldX op) (fieldY op))
  else if fieldN op = 0x6#4 then .ok (.shr (fieldX op) (fieldY op))
  else if fieldN op = 0x7#4 then .ok (.subn (fieldX op) (fieldY op))
  else if fieldN op = 0xE#4 then .ok (.shl (fieldX op) (fieldY op))
  else .error (.unrecognised op)

/-- Family 0xE: the low byte is 0x9E or 0xA1 (R54 (6)). -/
def decodeFamilyE (op : Word) : Except DecodeReject Instr :=
  if fieldNn op = 0x9E#8 then .ok (.skp (fieldX op))
  else if fieldNn op = 0xA1#8 then .ok (.sknp (fieldX op))
  else .error (.unrecognised op)

/-- Family 0xF: nine operations selected by the low byte (R54 (7)). -/
def decodeFamilyF (op : Word) : Except DecodeReject Instr :=
  if fieldNn op = 0x07#8 then .ok (.ldVxDt (fieldX op))
  else if fieldNn op = 0x0A#8 then .ok (.ldVxK (fieldX op))
  else if fieldNn op = 0x15#8 then .ok (.ldDtVx (fieldX op))
  else if fieldNn op = 0x18#8 then .ok (.ldStVx (fieldX op))
  else if fieldNn op = 0x1E#8 then .ok (.addI (fieldX op))
  else if fieldNn op = 0x29#8 then .ok (.ldF (fieldX op))
  else if fieldNn op = 0x33#8 then .ok (.ldB (fieldX op))
  else if fieldNn op = 0x55#8 then .ok (.storeRegs (fieldX op))
  else if fieldNn op = 0x65#8 then .ok (.loadRegs (fieldX op))
  else .error (.unrecognised op)

/-- Families 0x5 and 0x9: an instruction only when n = 0 (R54 (4), R57). -/
def decodeLowZero (op : Word) (i : Instr) : Except DecodeReject Instr :=
  if fieldN op = 0x0#4 then .ok i else .error (.unrecognised op)

/-- One word to one instruction or a rejection by name (R54). It reads nothing but the 16 bits (spec/40_cycle.md R73). -/
def decodeWord (op : Word) : Except DecodeReject Instr :=
  match (fieldFamily op).toNat with
  | 0x0 => decodeFamily0 op
  | 0x1 => .ok (.jp (fieldNnn op))
  | 0x2 => .ok (.call (fieldNnn op))
  | 0x3 => .ok (.seImm (fieldX op) (fieldNn op))
  | 0x4 => .ok (.sneImm (fieldX op) (fieldNn op))
  | 0x5 => decodeLowZero op (.seReg (fieldX op) (fieldY op))
  | 0x6 => .ok (.ldImm (fieldX op) (fieldNn op))
  | 0x7 => .ok (.addImm (fieldX op) (fieldNn op))
  | 0x8 => decodeFamily8 op
  | 0x9 => decodeLowZero op (.sneReg (fieldX op) (fieldY op))
  | 0xA => .ok (.ldI (fieldNnn op))
  | 0xB => .ok (.jpV0 (fieldNnn op))
  | 0xC => .ok (.rnd (fieldX op) (fieldNn op))
  | 0xD => .ok (.drw (fieldX op) (fieldY op) (fieldN op))
  | 0xE => decodeFamilyE op
  | _ => decodeFamilyF op

/-- The decoder on bytes as they lie in memory: one instruction and the rest, or a rejection by name (R50, R54). -/
def decode (bytes : List Byte) : Except DecodeReject (Instr × List Byte) :=
  match bytes with
  | hi :: lo :: rest =>
    match decodeWord (wordOfBytes hi lo) with
    | .ok i => .ok (i, rest)
    | .error r => .error r
  | _ => .error .truncated

/-- What the host asks of the decoder: the instruction whose bits are `w`, bit 0 the least significant bit of the one
16-bit word; its bytes are laid out big-endian and handed to `decode` (R33, R50). -/
def decodeTableWord (nbits w : Nat) : Option Instr :=
  let op : Word := BitVec.ofNat 16 (w % 2 ^ nbits)
  match decode [op.extractLsb' 8 8, op.extractLsb' 0 8] with
  | .ok (i, _) => some i
  | .error _ => none

/-! The encoder, from the `pattern`, `match` and `mask` columns of R55. -/

/-- Format ADDR: family and nnn (R53). -/
def packAddr (family : Nibble) (nnn : Addr) : Word := family ++ nnn
/-- Format REG_BYTE, and REG_SUB with its fixed low byte: family, x and nn (R53). -/
def packByte (family : Nibble) (x : RegNum) (nn : Byte) : Word := family ++ (x ++ nn : BitVec 12)
/-- Formats REG_REG and REG_REG_N: family, x, y and the low nibble (R53). -/
def packNibbles (family : Nibble) (x y : RegNum) (n : Nibble) : Word := family ++ (x ++ (y ++ n : BitVec 8) : BitVec 12)

/-- The word of an instruction (R55). -/
def encode (i : Instr) : Word :=
  match i with
  | .cls => 0x00E0#16
  | .ret => 0x00EE#16
  | .jp nnn => packAddr 0x1#4 nnn
  | .call nnn => packAddr 0x2#4 nnn
  | .seImm x nn => packByte 0x3#4 x nn
  | .sneImm x nn => packByte 0x4#4 x nn
  | .seReg x y => packNibbles 0x5#4 x y 0x0#4
  | .ldImm x nn => packByte 0x6#4 x nn
  | .addImm x nn => packByte 0x7#4 x nn
  | .ldReg x y => packNibbles 0x8#4 x y 0x0#4
  | .orReg x y => packNibbles 0x8#4 x y 0x1#4
  | .andReg x y => packNibbles 0x8#4 x y 0x2#4
  | .xorReg x y => packNibbles 0x8#4 x y 0x3#4
  | .addReg x y => packNibbles 0x8#4 x y 0x4#4
  | .subReg x y => packNibbles 0x8#4 x y 0x5#4
  | .shr x y => packNibbles 0x8#4 x y 0x6#4
  | .subn x y => packNibbles 0x8#4 x y 0x7#4
  | .shl x y => packNibbles 0x8#4 x y 0xE#4
  | .sneReg x y => packNibbles 0x9#4 x y 0x0#4
  | .ldI nnn => packAddr 0xA#4 nnn
  | .jpV0 nnn => packAddr 0xB#4 nnn
  | .rnd x nn => packByte 0xC#4 x nn
  | .drw x y n => packNibbles 0xD#4 x y n
  | .skp x => packByte 0xE#4 x 0x9E#8
  | .sknp x => packByte 0xE#4 x 0xA1#8
  | .ldVxDt x => packByte 0xF#4 x 0x07#8
  | .ldVxK x => packByte 0xF#4 x 0x0A#8
  | .ldDtVx x => packByte 0xF#4 x 0x15#8
  | .ldStVx x => packByte 0xF#4 x 0x18#8
  | .addI x => packByte 0xF#4 x 0x1E#8
  | .ldF x => packByte 0xF#4 x 0x29#8
  | .ldB x => packByte 0xF#4 x 0x33#8
  | .storeRegs x => packByte 0xF#4 x 0x55#8
  | .loadRegs x => packByte 0xF#4 x 0x65#8

/-- The bytes of an instruction in the order memory holds them: high byte first (R50, spec/20_memory.md R33). -/
def encodeBytes (i : Instr) : List Byte := [(encode i).extractLsb' 8 8, (encode i).extractLsb' 0 8]

/-! The opcode map of R55 as data: a word is the instruction of a row when `op & mask = match`. -/

/-- One row of the opcode map: the values of the fixed bits and which bits are fixed. -/
structure OpcodeRow where
  bits : Word
  mask : Word
deriving DecidableEq, Repr

/-- `op & mask = match` (R55). -/
def rowMatches (op : Word) (row : OpcodeRow) : Bool := op &&& row.mask == row.bits

/-- The row of an instruction, columns `match` and `mask` of R55. -/
def rowOf (i : Instr) : OpcodeRow :=
  match i with
  | .cls => ⟨0x00E0, 0xFFFF⟩
  | .ret => ⟨0x00EE, 0xFFFF⟩
  | .jp _ => ⟨0x1000, 0xF000⟩
  | .call _ => ⟨0x2000, 0xF000⟩
  | .seImm _ _ => ⟨0x3000, 0xF000⟩
  | .sneImm _ _ => ⟨0x4000, 0xF000⟩
  | .seReg _ _ => ⟨0x5000, 0xF00F⟩
  | .ldImm _ _ => ⟨0x6000, 0xF000⟩
  | .addImm _ _ => ⟨0x7000, 0xF000⟩
  | .ldReg _ _ => ⟨0x8000, 0xF00F⟩
  | .orReg _ _ => ⟨0x8001, 0xF00F⟩
  | .andReg _ _ => ⟨0x8002, 0xF00F⟩
  | .xorReg _ _ => ⟨0x8003, 0xF00F⟩
  | .addReg _ _ => ⟨0x8004, 0xF00F⟩
  | .subReg _ _ => ⟨0x8005, 0xF00F⟩
  | .shr _ _ => ⟨0x8006, 0xF00F⟩
  | .subn _ _ => ⟨0x8007, 0xF00F⟩
  | .shl _ _ => ⟨0x800E, 0xF00F⟩
  | .sneReg _ _ => ⟨0x9000, 0xF00F⟩
  | .ldI _ => ⟨0xA000, 0xF000⟩
  | .jpV0 _ => ⟨0xB000, 0xF000⟩
  | .rnd _ _ => ⟨0xC000, 0xF000⟩
  | .drw _ _ _ => ⟨0xD000, 0xF000⟩
  | .skp _ => ⟨0xE09E, 0xF0FF⟩
  | .sknp _ => ⟨0xE0A1, 0xF0FF⟩
  | .ldVxDt _ => ⟨0xF007, 0xF0FF⟩
  | .ldVxK _ => ⟨0xF00A, 0xF0FF⟩
  | .ldDtVx _ => ⟨0xF015, 0xF0FF⟩
  | .ldStVx _ => ⟨0xF018, 0xF0FF⟩
  | .addI _ => ⟨0xF01E, 0xF0FF⟩
  | .ldF _ => ⟨0xF029, 0xF0FF⟩
  | .ldB _ => ⟨0xF033, 0xF0FF⟩
  | .storeRegs _ => ⟨0xF055, 0xF0FF⟩
  | .loadRegs _ => ⟨0xF065, 0xF0FF⟩

/-- The 34 rows of the opcode map in the order of R55. -/
def opcodeRows : List OpcodeRow :=
  [⟨0x00E0, 0xFFFF⟩, ⟨0x00EE, 0xFFFF⟩, ⟨0x1000, 0xF000⟩, ⟨0x2000, 0xF000⟩, ⟨0x3000, 0xF000⟩, ⟨0x4000, 0xF000⟩,
   ⟨0x5000, 0xF00F⟩, ⟨0x6000, 0xF000⟩, ⟨0x7000, 0xF000⟩] ++
  [⟨0x8000, 0xF00F⟩, ⟨0x8001, 0xF00F⟩, ⟨0x8002, 0xF00F⟩, ⟨0x8003, 0xF00F⟩, ⟨0x8004, 0xF00F⟩, ⟨0x8005, 0xF00F⟩,
   ⟨0x8006, 0xF00F⟩, ⟨0x8007, 0xF00F⟩, ⟨0x800E, 0xF00F⟩] ++
  [⟨0x9000, 0xF00F⟩, ⟨0xA000, 0xF000⟩, ⟨0xB000, 0xF000⟩, ⟨0xC000, 0xF000⟩, ⟨0xD000, 0xF000⟩, ⟨0xE09E, 0xF0FF⟩,
   ⟨0xE0A1, 0xF0FF⟩] ++
  [⟨0xF007, 0xF0FF⟩, ⟨0xF00A, 0xF0FF⟩, ⟨0xF015, 0xF0FF⟩, ⟨0xF018, 0xF0FF⟩, ⟨0xF01E, 0xF0FF⟩, ⟨0xF029, 0xF0FF⟩,
   ⟨0xF033, 0xF0FF⟩, ⟨0xF055, 0xF0FF⟩, ⟨0xF065, 0xF0FF⟩]

end Sys2Proof
end

