-- ==== Sys2Proof/Config.lean ====
section
/-! DEFINITION. What is fixed for the machine (spec/00_scope.md R5), the parameter FONT (R6, spec/20_memory.md R36) and the
free random byte (spec/46_host_operations.md R140). -/

namespace Sys2Proof.Config

/-- `MEM_SIZE`: 4096 bytes at addresses 0x000 to 0xFFF (spec/00_scope.md R5). -/
abbrev memSize : Nat := 4096

/-- `FONT_BASE` (spec/00_scope.md R5). -/
abbrev fontBase : Nat := 0x050

/-- `FONT_SIZE`: 16 glyphs of 5 bytes (spec/00_scope.md R5). -/
abbrev fontSize : Nat := 80

/-- `PROG_BASE`: where `load` puts the image and where execution starts (spec/00_scope.md R5). -/
abbrev progBase : Nat := 0x200

/-- The parameter `FONT`: the spec's default table (spec/20_memory.md R36).
PRESUMED (log entry 3, unsafe): the source does not list the bytes; the spec gives this table from general knowledge. -/
def font : List Byte :=
  [0xF0, 0x90, 0x90, 0x90, 0xF0,   0x20, 0x60, 0x20, 0x20, 0x70,
   0xF0, 0x10, 0xF0, 0x80, 0xF0,   0xF0, 0x10, 0xF0, 0x10, 0xF0,
   0x90, 0x90, 0xF0, 0x10, 0x10,   0xF0, 0x80, 0xF0, 0x10, 0xF0,
   0xF0, 0x80, 0xF0, 0x90, 0xF0,   0xF0, 0x10, 0x20, 0x40, 0x40] ++
  [0xF0, 0x90, 0xF0, 0x90, 0xF0,   0xF0, 0x90, 0xF0, 0x10, 0xF0,
   0xF0, 0x90, 0xF0, 0x90, 0x90,   0xE0, 0x90, 0xE0, 0x90, 0xE0,
   0xF0, 0x80, 0x80, 0x80, 0xF0,   0xE0, 0x90, 0x90, 0x90, 0xE0,
   0xF0, 0x80, 0xF0, 0x80, 0xF0,   0xF0, 0x80, 0xF0, 0x80, 0x80]

/-- The byte that the `k`-th execution of `Cxnn` draws: a FREE VALUE without a body, so that every claim holds for every
sequence of bytes (spec/46_host_operations.md R140, decision D16). Log entry 2, safe. -/
opaque randomByte : Nat → Byte

end Sys2Proof.Config
end

