-- ==== Sys2Proof/Machine/State.lean ====
section
/-! DEFINITION. The state of the block as plain data (spec/10_state.md R21), the reasons a step can stop, and the state
after reset (spec/70_reset_and_hazards.md R175 to R177). -/

namespace Sys2Proof.Machine

/-- The five causes that the fault latch can hold (spec/60_exceptions.md R151). -/
inductive FaultCause where
  /-- `2nnn` with SP = 16. Code 1. -/
  | stackOverflow
  /-- `00EE` with SP = 0. Code 2. -/
  | stackUnderflow
  /-- A fetch with PC > 0xFFE. Code 3. -/
  | fetchRange
  /-- `Dxyn`, `Fx33`, `Fx55` or `Fx65` reaching beyond 0xFFF. Code 4. -/
  | memRange
  /-- `Ex9E` or `ExA1` with Vx > 0xF. Code 5. -/
  | keyRange
deriving DecidableEq, Repr

/-- The output events of `step()` and `tick()` with their payloads (spec/46_host_operations.md R141). -/
inductive Event where
  /-- A `Dxyn` completed (R119). -/
  | displayDirty
  /-- The fetched word is unrecognised: the word and the address it was fetched from (R74). -/
  | unknownOpcode (op : Word) (pc : Word)
  /-- A fault was raised: its cause, the fetch address, the word (absent for a fetch), the detail of R151. -/
  | fault (cause : FaultCause) (pc : Word) (op : Option Word) (detail : Option Word)
  /-- A tick took ST from 1 to 0 (R161). -/
  | toneStop
deriving DecidableEq, Repr

/-- Why the machine stops. -/
inductive Fault where
  /-- Answered by `step` alone, when the fault latch already holds a cause: the step does nothing and the state stands
  (spec/40_cycle.md R76, spec/60_exceptions.md R150: the faulted condition has an outcome of its own). Safe: no state is
  claimed after it. -/
  | halted (cause : FaultCause)
deriving DecidableEq, Repr

/-- What the model gives no meaning. -/
inductive Refusal where
  /-- An instruction without a meaning yet, rejected by name in exec's arm. Safe. No arm uses it. -/
  | notModelled (mnemonic : String)
  /-- Answered by `perform` for a `load` that does not stand between `reset` and the first step: the document does not
  describe it and the spec asks a model to refuse it (spec/46_host_operations.md R137, decision D19). Safe. -/
  | loadOutsideBoot
deriving DecidableEq, Repr

/-- Memory: pairs of address and byte, strictly rising, none equal to what an unlisted address reads as (see
`Memory.wf`). -/
abbrev Memory := List Host.Cell

/-- The display buffer, 32 rows of 64 pixels (spec/10_state.md R17). -/
abbrev Display := Vector (Vector Bool 64) 32

/-- The complete state of the block (spec/10_state.md R21) and three fields of the model's own, `loaded`, `draws` and
`out`. -/
structure State where
  /-- V0 to VF (R10). -/
  v : Vector Byte 16
  /-- The index register I, 16 bits of which the top four are always 0 (R12). -/
  index : Word
  /-- The program counter (R13). -/
  pc : Word
  /-- The stack pointer, 0 to 16: how many entries are in use (R15). -/
  sp : Fin 17
  /-- The sixteen call stack entries (R15). -/
  stack : Vector Word 16
  /-- Memory (R16). -/
  mem : Memory
  /-- The display buffer (R17). -/
  fb : Display
  /-- The delay timer (R18). -/
  dt : Byte
  /-- The sound timer (R18). -/
  st : Byte
  /-- The input latch, true meaning pressed (R19). -/
  keys : Vector Bool 16
  /-- The fault latch (R20, spec/60_exceptions.md R150). -/
  fault : Option FaultCause
  /-- The MODEL's own: has a `load` been carried out since the last reset? Only `load` reads it, to refuse a second one
  (spec/46_host_operations.md R137, decision D19; log entry 12). -/
  loaded : Bool
  /-- The MODEL's own: how many random bytes have been drawn; the next is `Config.randomByte draws` (log entry 2). -/
  draws : Nat
  /-- The MODEL's own: the event list the latest operation returned; nothing reads it (log entry 1). -/
  out : List Event
deriving DecidableEq, Repr

/-- What a meaning and a step answer. -/
abbrev Answer := Host.Outcome State Fault Refusal

/-- The state after the first `reset()` of a session: the values of spec/70_reset_and_hazards.md R176 (stated by the source) and R177 (the spec's
own choice, log entries 4 and 5). Memory lists nothing: every address holds its reset contents. A later `reset()`
differs from it in `draws` alone (`resetBlock`). -/
def State.reset : State where
  v := Vector.replicate 16 0
  index := 0
  pc := 0x200
  sp := 0
  stack := Vector.replicate 16 0
  mem := []
  fb := Vector.replicate 32 (Vector.replicate 64 false)
  dt := 0
  st := 0
  keys := Vector.replicate 16 false
  fault := none
  loaded := false
  draws := 0
  out := []

end Sys2Proof.Machine
end

