-- ==== Sys2Proof/Machine/Ops.lean ====
section
/-! DEFINITION. The named operations over registers, memory, stack, display and events, and `raise`, the one operation by
which the machine takes a fault (spec/60_exceptions.md R152). There is no return from a fault: R159 gives no return
instruction, and only `reset()` clears the latch. -/

namespace Sys2Proof.Machine

/-! ### Registers (spec/10_state.md R10 to R13, R18) -/

/-- `V[x]` (R10). -/
def readV (x : RegNum) (s : State) : Byte := s.v[x.toNat]

/-- `V[x] <- b` (R10). -/
def writeV (x : RegNum) (b : Byte) (s : State) : State := { s with v := s.v.set x.toNat b }

/-- VF, the only flag (R11). -/
abbrev regF : RegNum := 0xF#4

/-- `I <- a` (R12): every writer hands over a value of at most 12 significant bits. -/
def setIndex (a : Word) (s : State) : State := { s with index := a }

/-- `PC <- target` (R13). -/
def setPc (target : Word) (s : State) : State := { s with pc := target }

/-- `DT <- b` (R18). -/
def setDt (b : Byte) (s : State) : State := { s with dt := b }

/-- `ST <- b` (R18). -/
def setSt (b : Byte) (s : State) : State := { s with st := b }

/-- `V[k] <- b` for the bytes in order, `k` ascending (spec/43_index_memory.md R110). -/
def writeVFrom (k : Nat) : List Byte → State → State
  | [], s => s
  | b :: bs, s => writeVFrom (k + 1) bs (writeV (BitVec.ofNat 4 k) b s)

/-- V0 to Vx inclusive, V0 first (spec/43_index_memory.md R109). -/
def firstV (x : RegNum) (s : State) : List Byte :=
  (List.range (x.toNat + 1)).map fun k => readV (BitVec.ofNat 4 k) s

/-! ### The program counter within a step (spec/40_cycle.md R72, spec/41_flow.md R80) -/

/-- `PC <- PC + 2`: the advance before dispatch, and a skip whose condition holds. -/
def advancePc (s : State) : State := setPc (s.pc + 2) s

/-- `PC <- PC - 2`: back to the address the instruction was fetched from (spec/45_keys_timers.md R127). -/
def rewindPc (s : State) : State := setPc (s.pc - 2) s

/-- A skip (R80). -/
def skipIf (condition : Bool) (s : State) : State := if condition then advancePc s else s

/-! ### Events (spec/46_host_operations.md R141) -/

/-- `events <- []`: an operation starts with an empty event list. -/
def clearOut (s : State) : State := { s with out := [] }

/-- `emit e`. -/
def emit (e : Event) (s : State) : State := { s with out := s.out ++ [e] }

/-! ### Memory (spec/20_memory.md R30 to R46) -/

/-- What an address that memory does not list reads as: its contents after reset, the font at 0x050 to 0x09F (R31, R36,
spec/70_reset_and_hazards.md R176) and 0x00 elsewhere (R177, the spec's own choice; log entry 4). -/
def initialByte (a : Nat) : Byte :=
  if Config.fontBase ≤ a ∧ a < Config.fontBase + Config.fontSize then Config.font.getD (a - Config.fontBase) 0 else 0

/-- `Mem[a]`. -/
def Memory.lookup : Memory → Nat → Byte
  | [], a => initialByte a
  | (k, b) :: rest, a => if k = a then b else Memory.lookup rest a

/-- The cell at the head of a memory, left out where it holds the reset contents. -/
def Memory.cons (a : Nat) (b : Byte) (rest : Memory) : Memory :=
  if b = initialByte a then rest else (a, b) :: rest

/-- `Mem[a] <- b`, keeping the canonical form. -/
def Memory.update : Memory → Nat → Byte → Memory
  | [], a, b => Memory.cons a b []
  | (k, c) :: rest, a, b =>
    if a < k then Memory.cons a b ((k, c) :: rest)
    else if a = k then Memory.cons a b rest
    else (k, c) :: Memory.update rest a b

/-- The canonical form above address `lo`: addresses strictly rising, inside the address space, no entry equal to the reset
contents. -/
def Memory.wfFrom (lo : Nat) : Memory → Bool
  | [] => true
  | (k, b) :: rest => decide (lo ≤ k ∧ k < Config.memSize ∧ b ≠ initialByte k) && Memory.wfFrom (k + 1) rest

/-- The canonical form of memory. -/
def Memory.wf (m : Memory) : Bool := Memory.wfFrom 0 m

/-- `MemRead(a, 1)`: the byte, or `none` above 0xFFF, where the access raises `MemRange` (R40). -/
def memRead (a : Nat) (s : State) : Option Byte :=
  if a ≤ 0xFFF then some (s.mem.lookup a) else none

/-- `MemWrite(a, 1, b)`: the byte is written, or `none` above 0xFFF, where the access raises `MemRange` and nothing is
written (R41). -/
def memWrite (a : Nat) (b : Byte) (s : State) : Option State :=
  if a ≤ 0xFFF then some { s with mem := s.mem.update a b } else none

/-- `count` byte reads at ascending addresses from `base` (R35). -/
def readBytes (base : Nat) : Nat → State → Option (List Byte)
  | 0, _ => some []
  | count + 1, s =>
    match memRead base s with
    | none => none
    | some b =>
      match readBytes (base + 1) count s with
      | none => none
      | some bs => some (b :: bs)

/-- Byte writes at ascending addresses from `base` (R35). -/
def writeBytes (base : Nat) : List Byte → State → Option State
  | [], s => some s
  | b :: bs, s =>
    match memWrite base b s with
    | none => none
    | some t => writeBytes (base + 1) bs t

/-! ### Taking a fault (spec/60_exceptions.md R150 to R152) -/

/-- `raise`: PC is the fetch address, the cause is latched, one `Fault` report is emitted, nothing else changes (R152). -/
def raiseAt (pc0 : Word) (cause : FaultCause) (op : Option Word) (detail : Option Word) (s : State) : State :=
  emit (.fault cause pc0 op detail) { s with pc := pc0, fault := some cause }

/-- `raise` from the instruction `i`, whose step has already advanced PC: the advance is undone and the report carries the
instruction's word (R152; log entry 7). The answer is a next state: the step returns normally to the host. -/
def raise (cause : FaultCause) (i : Instr) (detail : Option Word) (s : State) : Answer :=
  .next (raiseAt (s.pc - 2) cause (some (encode i)) detail s)

/-- The range check that stands before any access: with base `base` and `count` accesses, is the last address above 0xFFF?
No access, no check (R42). -/
def rangeFault (base count : Nat) : Bool := decide (0 < count ∧ base + count - 1 > 0xFFF)

/-- An instruction that makes `count` accesses from I: its whole range is checked before any effect; a range that does not fit
raises `MemRange(0x1000)`; otherwise all the accesses happen (R42). -/
def accessAtIndex (count : Nat) (i : Instr) (access : State → Option State) (s : State) : Answer :=
  match (if rangeFault s.index.toNat count then none else access s) with
  | some t => .next t
  | none => raise .memRange i (some 0x1000#16) s

/-! ### Call stack (spec/10_state.md R15) -/

/-- Push: `STACK[SP] <- a; SP <- SP + 1`, or `none` with SP = 16. -/
def push (a : Word) (s : State) : Option State :=
  if h : s.sp.val < 16 then
    some { s with stack := s.stack.set s.sp.val a h, sp := ⟨s.sp.val + 1, by omega⟩ }
  else none

/-- Pop: `SP <- SP - 1`, and the entry `STACK[SP]` at the new pointer, or `none` with SP = 0. -/
def pop (s : State) : Option (Word × State) :=
  if h : 0 < s.sp.val then
    some (s.stack[s.sp.val - 1]'(by omega), { s with sp := ⟨s.sp.val - 1, by omega⟩ })
  else none

/-! ### Display (spec/10_state.md R17, spec/44_display.md R115 to R118) -/

/-- The all-zero buffer (R115). -/
def blankDisplay : Display := Vector.replicate 32 (Vector.replicate 64 false)

/-- The pixel at a row and a column, each taken modulo the height and the width independently (R116, R117). -/
def pixel (d : Display) (row col : Nat) : Bool :=
  (d[row % 32]'(Nat.mod_lt _ (by decide)))[col % 64]'(Nat.mod_lt _ (by decide))

/-- `FB[row][col] <- FB[row][col] ^ 1`, row and column reduced as in `pixel` (R116). -/
def flipPixel (d : Display) (row col : Nat) : Display :=
  d.set (row % 32)
    ((d[row % 32]'(Nat.mod_lt _ (by decide))).set (col % 64) (!pixel d row col) (Nat.mod_lt _ (by decide)))
    (Nat.mod_lt _ (by decide))

/-- Plot one set sprite bit: the pixel is flipped, and a pixel that was 1 raises the collision (R116, R118). -/
def plot (row col : Nat) (p : Display × Bool) : Display × Bool :=
  (flipPixel p.1 row col, p.2 || pixel p.1 row col)

/-- The bit of a sprite byte at column offset `c`, 0 to 7: bit 7 is the leftmost pixel (R117).
PRESUMED (log entry 15, unsafe): the source does not say which bit is which column; the spec takes this from general
knowledge. -/
def spriteBit (byte : Byte) (c : Nat) : Bool := byte.getLsbD (7 - c)

/-- The column loop of one sprite row, over the column offsets given, ascending (R116). -/
def plotColumns (vx row : Nat) (byte : Byte) : List Nat → Display × Bool → Display × Bool
  | [], p => p
  | c :: cs, p => plotColumns vx row byte cs (if spriteBit byte c then plot row (vx + c) p else p)

/-- The column offsets of a sprite row (R117). -/
def columnOffsets : List Nat := [0, 1, 2, 3, 4, 5, 6, 7]

/-- The row loop: the sprite bytes from row `row` of the buffer downwards (R116). -/
def plotRows (vx : Nat) : Nat → List Byte → Display × Bool → Display × Bool
  | _, [], p => p
  | row, byte :: bytes, p => plotRows vx (row + 1) bytes (plotColumns vx row byte columnOffsets p)

/-- The buffer and the collision after the whole sprite is drawn with its corner at column `vx` and row `vy` (R116). -/
def drawSprite (vx vy : Byte) (bytes : List Byte) (d : Display) : Display × Bool :=
  plotRows vx.toNat vy.toNat bytes (d, false)

/-- The display buffer is replaced. -/
def setFb (d : Display) (s : State) : State := { s with fb := d }

/-! ### Keys (spec/10_state.md R19) -/

/-- `KEYS[k]`. -/
def keyPressed (k : Nibble) (s : State) : Bool := s.keys[k.toNat]

/-- The key numbers in ascending order. -/
def keyNumbers : List Nibble := [0#4, 1#4, 2#4, 3#4, 4#4, 5#4, 6#4, 7#4, 8#4, 9#4, 10#4, 11#4, 12#4, 13#4, 14#4, 15#4]

/-- The least pressed key, if any (spec/45_keys_timers.md R127). -/
def lowestKey (s : State) : Option Nibble := keyNumbers.find? fun k => keyPressed k s

/-! ### The random input (spec/46_host_operations.md R140) -/

/-- `draw random_byte`: the next free value, and the state that has consumed it (log entry 2). -/
def drawRandom (s : State) : Byte × State := (Config.randomByte s.draws, { s with draws := s.draws + 1 })

end Sys2Proof.Machine
end

