-- ==== Sys2Proof/Machine/Flags.lean ====
section
/-! DEFINITION. The flag computations (spec/42_alu.md R97 to R101) and the order of the two writes of a flag-writing
instruction (R90). -/

namespace Sys2Proof.Machine

/-- Carry out of bit 7: the true sum exceeds 255 (R97). -/
def carryOut (a b : Byte) : Bool := decide (a.toNat + b.toNat > 255)

/-- No borrow in a - b: a >= b (R98, R100). -/
def noBorrow (a b : Byte) : Bool := decide (a.toNat ≥ b.toNat)

/-- The bit that a right shift moves out: bit 0 (R99). -/
def bitShiftedRight (a : Byte) : Bool := a.getLsbD 0

/-- The bit that a left shift moves out: bit 7 (R101). -/
def bitShiftedLeft (a : Byte) : Bool := a.getLsbD 7

/-- A flag as the byte VF receives: 1 or 0. -/
def flagByte (flag : Bool) : Byte := if flag then 1 else 0

/-- `V[0xF] <- flag; V[x] <- result`, in this order, so that with x = 0xF the result stays (R90, decision D14; log entry
14). -/
def writeFlagThenResult (flag : Bool) (x : RegNum) (result : Byte) (s : State) : State :=
  writeV x result (writeV regF (flagByte flag) s)

end Sys2Proof.Machine
end

