-- ==== Sys2Proof/Machine/Operands.lean ====
section
/-! DEFINITION. The operand forms (spec/30_encoding.md R52, spec/43_index_memory.md R111): register operands are `readV`; the
others are here. -/

namespace Sys2Proof.Machine

/-- `zext_16(nnn)`: an address immediate as a word (spec/30_encoding.md R52). -/
def addressOperand (nnn : Addr) : Word := nnn.setWidth 16

/-- `zext_16(V[x])` (spec/43_index_memory.md R106, spec/41_flow.md R88). -/
def wordOperand (x : RegNum) (s : State) : Word := (readV x s).setWidth 16

/-- The key number in Vx, or `none` where Vx > 0xF (spec/45_keys_timers.md R125): the value is not masked. -/
def keyOperand (x : RegNum) (s : State) : Option Nibble :=
  if (readV x s).toNat > 0xF then none else some ((readV x s).setWidth 4)

/-- The address of the `k`-th byte of an index-relative access: I + k without reduction (spec/43_index_memory.md R111 (b)). -/
def indexedAddress (k : Nat) (s : State) : Nat := s.index.toNat + k

/-- A value reduced mod 4096, in a 16-bit register (spec/10_state.md R12). -/
def mod4096 (a : Word) : Word := BitVec.ofNat 16 (a.toNat % 4096)

/-- The address of the glyph of the low nibble of a byte: 0x050 + 5 * (b & 0xF) (spec/43_index_memory.md R107). -/
def glyphAddress (b : Byte) : Word := BitVec.ofNat 16 (Config.fontBase + 5 * (b &&& 0xF#8).toNat)

/-- The three decimal digits of a byte, hundreds, tens, ones (spec/43_index_memory.md R108). -/
def decimalDigits (b : Byte) : List Byte :=
  [BitVec.ofNat 8 (b.toNat / 100), BitVec.ofNat 8 (b.toNat / 10 % 10), BitVec.ofNat 8 (b.toNat % 10)]

end Sys2Proof.Machine
end

