-- ==== Sys2Proof/Machine/Alu.lean ====
section
/-! DEFINITION. Register loads, arithmetic, logic, shifts and random (spec/42_alu.md): `6xnn`, `7xnn`, `8xy0` to `8xy7`,
`8xyE`, `Cxnn`. Operands are read before anything is written (R90). -/

namespace Sys2Proof.Machine

/-- `6xnn` LD Vx, nn (R91). -/
def execLdImm (x : RegNum) (nn : Byte) (s : State) : Answer := .next (writeV x nn s)

/-- `7xnn` ADD Vx, nn (R92): no flag. -/
def execAddImm (x : RegNum) (nn : Byte) (s : State) : Answer := .next (writeV x (readV x s + nn) s)

/-- `8xy0` LD Vx, Vy (R93). -/
def execLdReg (x y : RegNum) (s : State) : Answer := .next (writeV x (readV y s) s)

/-- `8xy1` OR Vx, Vy (R94): VF is not written. -/
def execOrReg (x y : RegNum) (s : State) : Answer := .next (writeV x (readV x s ||| readV y s) s)

/-- `8xy2` AND Vx, Vy (R95): VF is not written. -/
def execAndReg (x y : RegNum) (s : State) : Answer := .next (writeV x (readV x s &&& readV y s) s)

/-- `8xy3` XOR Vx, Vy (R96): VF is not written. -/
def execXorReg (x y : RegNum) (s : State) : Answer := .next (writeV x (readV x s ^^^ readV y s) s)

/-- `8xy4` ADD Vx, Vy (R97). -/
def execAddReg (x y : RegNum) (s : State) : Answer :=
  .next (writeFlagThenResult (carryOut (readV x s) (readV y s)) x (readV x s + readV y s) s)

/-- `8xy5` SUB Vx, Vy (R98). -/
def execSubReg (x y : RegNum) (s : State) : Answer :=
  .next (writeFlagThenResult (noBorrow (readV x s) (readV y s)) x (readV x s - readV y s) s)

/-- `8xy6` SHR Vx (R99): Vx is shifted in place, `y` is ignored (R58). -/
def execShr (x _y : RegNum) (s : State) : Answer :=
  .next (writeFlagThenResult (bitShiftedRight (readV x s)) x (readV x s >>> 1) s)

/-- `8xy7` SUBN Vx, Vy (R100). -/
def execSubn (x y : RegNum) (s : State) : Answer :=
  .next (writeFlagThenResult (noBorrow (readV y s) (readV x s)) x (readV y s - readV x s) s)

/-- `8xyE` SHL Vx (R101): Vx is shifted in place, `y` is ignored (R58). -/
def execShl (x _y : RegNum) (s : State) : Answer :=
  .next (writeFlagThenResult (bitShiftedLeft (readV x s)) x (readV x s <<< 1) s)

/-- `Cxnn` RND Vx, nn (R102): a free random byte, masked. -/
def execRnd (x : RegNum) (nn : Byte) (s : State) : Answer :=
  .next (writeV x ((drawRandom s).1 &&& nn) (drawRandom s).2)

end Sys2Proof.Machine
end

