-- ==== Sys2Proof/Machine/Draw.lean ====
section
/-! DEFINITION. The display instructions (spec/44_display.md): `00E0`, `Dxyn`. -/

namespace Sys2Proof.Machine

/-- `00E0` CLS (R115): no flag, no event. -/
def execCls (s : State) : Answer := .next (setFb blankDisplay s)

/-- A completed draw: the buffer, then VF := collision, then the dirty report (R116, R119). -/
def drawn (x y : RegNum) (bytes : List Byte) (s : State) : State :=
  let p := drawSprite (readV x s) (readV y s) bytes s.fb
  emit .displayDirty (writeV regF (flagByte p.2) (setFb p.1 s))

/-- The n byte reads of `Dxyn` and the draw (R116). -/
def readAndDraw (x y : RegNum) (n : Nibble) (s : State) : Option State :=
  match readBytes (indexedAddress 0 s) n.toNat s with
  | none => none
  | some bytes => some (drawn x y bytes s)

/-- `Dxyn` DRW Vx, Vy, n (R116). -/
def execDrw (x y : RegNum) (n : Nibble) (s : State) : Answer :=
  accessAtIndex n.toNat (.drw x y n) (readAndDraw x y n) s

end Sys2Proof.Machine
end

