-- ==== Sys2Proof/Machine/Flow.lean ====
section
/-! DEFINITION. Control transfer (spec/41_flow.md): `00EE`, `1nnn`, `2nnn`, `3xnn`, `4xnn`, `5xy0`, `9xy0`, `Bnnn`. Every
meaning runs at the state after the fetch and the PC advance. -/

namespace Sys2Proof.Machine

/-- `00EE` RET (R81). -/
def execRet (s : State) : Answer :=
  match pop s with
  | none => raise .stackUnderflow .ret none s
  | some (a, t) => .next (setPc a t)

/-- `1nnn` JP (R82). -/
def execJp (nnn : Addr) (s : State) : Answer := .next (setPc (addressOperand nnn) s)

/-- `2nnn` CALL (R83): the advanced PC is pushed. -/
def execCall (nnn : Addr) (s : State) : Answer :=
  match push s.pc s with
  | none => raise .stackOverflow (.call nnn) none s
  | some t => .next (setPc (addressOperand nnn) t)

/-- `3xnn` SE Vx, nn (R84). -/
def execSeImm (x : RegNum) (nn : Byte) (s : State) : Answer := .next (skipIf (readV x s == nn) s)

/-- `4xnn` SNE Vx, nn (R85). -/
def execSneImm (x : RegNum) (nn : Byte) (s : State) : Answer := .next (skipIf (readV x s != nn) s)

/-- `5xy0` SE Vx, Vy (R86). -/
def execSeReg (x y : RegNum) (s : State) : Answer := .next (skipIf (readV x s == readV y s) s)

/-- `9xy0` SNE Vx, Vy (R87). -/
def execSneReg (x y : RegNum) (s : State) : Answer := .next (skipIf (readV x s != readV y s) s)

/-- `Bnnn` JP V0, nnn (R88): the sum is not reduced. -/
def execJpV0 (nnn : Addr) (s : State) : Answer := .next (setPc (addressOperand nnn + wordOperand 0#4 s) s)

end Sys2Proof.Machine
end

