-- ==== Sys2Proof/Machine/Index.lean ====
section
/-! DEFINITION. Index register and memory transfer (spec/43_index_memory.md): `Annn`, `Fx1E`, `Fx29`, `Fx33`, `Fx55`, `Fx65`.
None of the transfers changes I. -/

namespace Sys2Proof.Machine

/-- `Annn` LD I, nnn (R105). -/
def execLdI (nnn : Addr) (s : State) : Answer := .next (setIndex (addressOperand nnn) s)

/-- `Fx1E` ADD I, Vx (R106): modulo 4096, no flag. -/
def execAddI (x : RegNum) (s : State) : Answer := .next (setIndex (mod4096 (s.index + wordOperand x s)) s)

/-- `Fx29` LD F, Vx (R107). -/
def execLdF (x : RegNum) (s : State) : Answer := .next (setIndex (glyphAddress (readV x s)) s)

/-- The three byte writes of `Fx33` (R108). -/
def storeDigits (x : RegNum) (s : State) : Option State :=
  writeBytes (indexedAddress 0 s) (decimalDigits (readV x s)) s

/-- `Fx33` LD B, Vx (R108). -/
def execLdB (x : RegNum) (s : State) : Answer := accessAtIndex 3 (.ldB x) (storeDigits x) s

/-- The x + 1 byte writes of `Fx55` (R109). -/
def storeFirstV (x : RegNum) (s : State) : Option State := writeBytes (indexedAddress 0 s) (firstV x s) s

/-- `Fx55` LD [I], Vx (R109). -/
def execStoreRegs (x : RegNum) (s : State) : Answer :=
  accessAtIndex (x.toNat + 1) (.storeRegs x) (storeFirstV x) s

/-- The x + 1 byte reads of `Fx65` into V0 to Vx (R110). -/
def loadFirstV (x : RegNum) (s : State) : Option State :=
  match readBytes (indexedAddress 0 s) (x.toNat + 1) s with
  | none => none
  | some bytes => some (writeVFrom 0 bytes s)

/-- `Fx65` LD Vx, [I] (R110). -/
def execLoadRegs (x : RegNum) (s : State) : Answer :=
  accessAtIndex (x.toNat + 1) (.loadRegs x) (loadFirstV x) s

end Sys2Proof.Machine
end

