-- ==== Sys2Proof/Machine/KeysTimers.lean ====
section
/-! DEFINITION. Keys and timer access (spec/45_keys_timers.md): `Ex9E`, `ExA1`, `Fx0A`, `Fx07`, `Fx15`, `Fx18`. -/

namespace Sys2Proof.Machine

/-- The `KeyRange` fault of the two key skips, with the value of Vx as detail (R125, R126, spec/60_exceptions.md R151). -/
def raiseKeyRange (x : RegNum) (i : Instr) (s : State) : Answer := raise .keyRange i (some (wordOperand x s)) s

/-- `Ex9E` SKP Vx (R125). -/
def execSkp (x : RegNum) (s : State) : Answer :=
  match keyOperand x s with
  | none => raiseKeyRange x (.skp x) s
  | some k => .next (skipIf (keyPressed k s) s)

/-- `ExA1` SKNP Vx (R126). -/
def execSknp (x : RegNum) (s : State) : Answer :=
  match keyOperand x s with
  | none => raiseKeyRange x (.sknp x) s
  | some k => .next (skipIf (!keyPressed k s) s)

/-- `Fx0A` LD Vx, K (R127): with no key latched PC goes back to this instruction and nothing else changes. -/
def execLdVxK (x : RegNum) (s : State) : Answer :=
  match lowestKey s with
  | none => .next (rewindPc s)
  | some k => .next (writeV x (k.setWidth 8) s)

/-- `Fx07` LD Vx, DT (R128). -/
def execLdVxDt (x : RegNum) (s : State) : Answer := .next (writeV x s.dt s)

/-- `Fx15` LD DT, Vx (R129). -/
def execLdDtVx (x : RegNum) (s : State) : Answer := .next (setDt (readV x s) s)

/-- `Fx18` LD ST, Vx (R130): no event. -/
def execLdStVx (x : RegNum) (s : State) : Answer := .next (setSt (readV x s) s)

end Sys2Proof.Machine
end

