-- ==== Sys2Proof/Machine/Fetch.lean ====
section
/-! DEFINITION. The parts of the fetch-decode-execute step around the instruction (spec/40_cycle.md R70 to R76): the fetch, the
decode of the fetched bytes, the fault of a fetch out of range, and the unrecognised word. -/

namespace Sys2Proof.Machine

/-- The two bytes at PC and PC + 1, or `none` where PC > 0xFFE: no wrap, no alignment condition (R71, spec/20_memory.md R34,
R43). -/
def fetchBytes (s : State) : Option (List Byte) := readBytes s.pc.toNat 2 s

/-- A fetch out of range: `raise FetchRange(PC)`; PC has not been advanced and there is no word (R71,
spec/60_exceptions.md R151, R152). -/
def raiseFetch (s : State) : State := raiseAt s.pc .fetchRange none (some s.pc) s

/-- What the step does with a word that is no instruction, at the state after the PC advance: one `UnknownOpcode` report with
the word and the address it was fetched from, nothing else (R74). -/
def reportUnknown (r : DecodeReject) (s : State) : State :=
  match r with
  | .unrecognised op => emit (.unknownOpcode op (s.pc - 2)) s
  | .truncated => s

end Sys2Proof.Machine
end

