-- ==== Sys2Proof/Machine/Step.lean ====
section
/-! DEFINITION. One step of the machine (spec/40_cycle.md R70), and the placing of an instruction where it fetches next. -/

namespace Sys2Proof.Machine

/-- `step()` (R70). A latched fault stops the machine (R76; log entry 6). Otherwise the event list starts empty, the two
bytes at PC are fetched (R71), PC advances by 2 (R72), and the decoded instruction executes (R73) or the unrecognised word
is reported (R74). -/
def step (s : State) : Host.Outcome State Fault Refusal :=
  match s.fault with
  | some cause => .fault (.halted cause)
  | none =>
    match fetchBytes s with
    | none => .next (raiseFetch (clearOut s))
    | some bytes =>
      match decode bytes with
      | .ok (i, _) => exec i (advancePc (clearOut s))
      | .error r => .next (reportUnknown r (advancePc (clearOut s)))

/-- The state `s` with the instruction of bits `w` where the next step fetches: its two bytes, high byte first, at PC and
PC + 1. What the fetch also needs is set: the fault latch is clear, and a PC no instruction can be fetched from is put at
`PROG_BASE`. This stands for the host's `load` (log entry 13). -/
def State.withFetchWord (s : State) (nbits w : Nat) : State :=
  let op : Word := BitVec.ofNat 16 (w % 2 ^ nbits)
  let pc : Word := if s.pc.toNat ≤ 0xFFE then s.pc else BitVec.ofNat 16 Config.progBase
  { s with
    fault := none
    pc := pc
    mem := (s.mem.update pc.toNat (op.extractLsb' 8 8)).update (pc.toNat + 1) (op.extractLsb' 0 8) }

end Sys2Proof.Machine
end

