-- ==== Sys2Proof/Machine/Operations.lean ====
section
/-! DEFINITION. The operations the host performs on the block, one transition each (spec/46_host_operations.md R135, R136):
`reset`, `load`, `step`, `tick`, `set_keys`, `snapshot`, and the `tone` output. -/

namespace Sys2Proof.Machine

/-- `reset()`: every piece of state of the block goes to its reset value, whatever it was (spec/70_reset_and_hazards.md R175).
The model's own count of random bytes goes on, because the bytes are an input and no operation of the block makes them repeat
(spec/46_host_operations.md R140, decision D16; log entry 2). -/
def resetBlock (s : State) : State := { State.reset with draws := s.draws }

/-- `tick()` on one timer: decremented by 1 when above 0, floor at 0 (spec/60_exceptions.md R160). -/
def countDown (b : Byte) : Byte := if b = 0 then 0 else b - 1

/-- `tick()`: both timers count down; a sound timer that goes from 1 to 0 emits `ToneStop` (spec/60_exceptions.md R160, R161).
The fault latch does not matter. -/
def tick (s : State) : State :=
  let t := { clearOut s with dt := countDown s.dt, st := countDown s.st }
  if s.st = 1 then emit .toneStop t else t

/-- `set_keys(k)`: full replacement (spec/46_host_operations.md R138). -/
def setKeys (k : Vector Bool 16) (s : State) : State := { clearOut s with keys := k }

/-- `snapshot()`: the whole buffer, row first; nothing changes (spec/46_host_operations.md R139). -/
def snapshot (s : State) : Vector (Vector Bool 64) 32 := s.fb

/-- The `tone` level output: ST > 0 (spec/46_host_operations.md R142). -/
def tone (s : State) : Bool := decide (s.st.toNat > 0)

/-- The result of a `load`. -/
inductive LoadResult where
  /-- `ok`, with the image in memory. -/
  | ok (s : State)
  /-- `LoadTooLarge`: no state changes (spec/46_host_operations.md R137, spec/60_exceptions.md R154). -/
  | tooLarge
  /-- The load does not stand between `reset` and the first step: the model gives it no meaning (decision D19). -/
  | outsideBoot
deriving DecidableEq, Repr

/-- Does the block stand between `reset()` and the first successful `load` or the first step? It is then as `reset()` left it
but for the input latch, the count of random bytes and the event list of the latest operation, and no load has been carried
out. Only then has `load` its meaning (spec/46_host_operations.md R137, spec/70_reset_and_hazards.md R178; log entry 12). -/
def atBoot (s : State) : Bool := decide ({ s with keys := State.reset.keys, draws := State.reset.draws, out := [] } = State.reset)

/-- A load is carried out: there is no second one before a reset (decision D19). -/
def markLoaded (s : State) : State := { s with loaded := true }

/-- `load(bytes)`: byte k goes to 0x200 + k; an image above 3584 bytes is refused whole (spec/46_host_operations.md R137). A
load that succeeds, of an empty image too, is the only one until a reset. -/
def load (image : List Byte) (s : State) : LoadResult :=
  if !atBoot s then .outsideBoot
  else if image.length + Config.progBase > Config.memSize then .tooLarge
  else
    match writeBytes Config.progBase image (markLoaded (clearOut s)) with
    | some t => .ok t
    | none => .tooLarge

/-- The six operations of the host (spec/46_host_operations.md R136). -/
inductive Operation where
  | reset
  | load (image : List Byte)
  | step
  | tick
  | setKeys (k : Vector Bool 16)
  | snapshot
deriving DecidableEq, Repr

/-- One operation, one transition (spec/46_host_operations.md R135). The host may issue them in any order (R143). -/
def perform (o : Operation) (s : State) : Answer :=
  match o with
  | .reset => .next (resetBlock s)
  | .load image =>
    match load image s with
    | .ok t => .next t
    | .tooLarge => .next s
    | .outsideBoot => .refused .loadOutsideBoot
  | .step => step s
  | .tick => .next (tick s)
  | .setKeys k => .next (setKeys k s)
  | .snapshot => .next s

end Sys2Proof.Machine
end

