-- ==== Sys2Proof/Safety.lean ====
section
/-! DEFINITION. The terms in which claims are stated: the invariant of the machine, reachable states, what each instruction may
write, safe, parked and stalled states. -/

namespace Sys2Proof.Machine

/-- No fault is recorded: a state with FAULT set is never a good final state (spec/60_exceptions.md R150). -/
def Safe (s : State) : Prop := s.fault = none

/-- The invariant of the block: memory in canonical form inside the address space, I in 0x000 to 0xFFF (spec/10_state.md R12),
PC at most 0x10FE (R14), and no stack entry above 0x1000, the largest advanced PC a call can push (R14, R15,
spec/41_flow.md R83). SP in 0 to 16 holds by its type. -/
abbrev Inv (s : State) : Prop :=
  s.mem.wf = true ∧ s.index.toNat ≤ 0xFFF ∧ s.pc.toNat ≤ 0x10FE ∧ ∀ k : Fin 16, s.stack[k].toNat ≤ 0x1000

/-- The states the host can bring about with any operations in any order (spec/46_host_operations.md R143). -/
inductive Reachable : State → Prop where
  | atReset : Reachable State.reset
  | after {s t : State} (o : Operation) (before : Reachable s) (h : perform o s = .next t) : Reachable t

/-- The next state of an answer is changed, a fault or a refusal is kept. -/
def mapNext (f : State → State) (a : Answer) : Answer :=
  match a with
  | .next t => .next (f t)
  | .fault r => .fault r
  | .refused r => .refused r

/-- `k` executions of one instruction, one after the other. -/
def execTimes (i : Instr) : Nat → State → Answer
  | 0, s => .next s
  | k + 1, s =>
    match exec i s with
    | .next t => execTimes i k t
    | .fault r => .fault r
    | .refused r => .refused r

/-- `k` ticks, one after the other. -/
def ticks : Nat → State → State
  | 0, s => s
  | k + 1, s => ticks k (tick s)

/-- The word that the next step fetches, where it can fetch one (spec/40_cycle.md R71). -/
def NextWord (s : State) (op : Word) : Prop :=
  ∃ hi lo, memRead s.pc.toNat s = some hi ∧ memRead (s.pc.toNat + 1) s = some lo ∧
    op.toNat = hi.toNat * 256 + lo.toNat

/-- Parked: PC holds the address of a `1nnn` whose nnn equals that address (spec/70_reset_and_hazards.md R179 (b)). -/
def Parked (s : State) : Prop :=
  s.fault = none ∧ ∃ nnn : Addr, s.pc.toNat = nnn.toNat ∧ NextWord s (encode (.jp nnn))

/-- Stalled: PC holds the address of an `Fx0A` and no key is latched (spec/70_reset_and_hazards.md R179 (c)). -/
def Stalled (s : State) : Prop :=
  s.fault = none ∧ (∃ x : RegNum, NextWord s (encode (.ldVxK x))) ∧ ∀ k : Nibble, keyPressed k s = false

/-- Sprite row `r` has a set bit at column offset `c`, bit 7 leftmost (spec/44_display.md R117). -/
def SpriteSet (s : State) (r c : Nat) : Prop :=
  ∃ byte, memRead (s.index.toNat + r) s = some byte ∧ byte.getLsbD (7 - c) = true

/-- The pixel that an n-row sprite at (column Vx, row Vy) addresses with a set bit (spec/44_display.md R116, R117). -/
def SpriteAddresses (s : State) (x y : RegNum) (n : Nibble) (row col : Nat) : Prop :=
  ∃ r c, r < n.toNat ∧ c < 8 ∧ SpriteSet s r c ∧
    row = ((readV y s).toNat + r) % 32 ∧ col = ((readV x s).toNat + c) % 64

/-- What a fault leaves, as spec/60_exceptions.md R152 lists it: PC back at the fetch address `pc0`, the cause latched, one
`Fault` report with the word and the detail, everything else as it was. -/
def faultedState (pc0 : Word) (cause : FaultCause) (op detail : Option Word) (s : State) : State :=
  { s with pc := pc0, fault := some cause, out := s.out ++ [.fault cause pc0 op detail] }

/-- What an instruction may write besides PC. `regs` are its destination registers, VF as a flag among them; `stores` is how
many bytes it stores from I on. -/
structure Effects where
  regs : RegNum → Bool := fun _ => false
  index : Bool := false
  stack : Bool := false
  stores : Nat := 0
  display : Bool := false
  delay : Bool := false
  sound : Bool := false
  random : Bool := false
  dirty : Bool := false
  canFault : Bool := false
  movesPc : Bool := false

/-- One destination register. -/
def onlyReg (x : RegNum) : RegNum → Bool := fun z => z == x

/-- One destination register and the flag VF (spec/10_state.md R11). -/
def regAndFlag (x : RegNum) : RegNum → Bool := fun z => z == x || z == regF

/-- The effects of every instruction, read from the summary table and R10 to R19 of spec/10_state.md and from
spec/60_exceptions.md R151. -/
def effects (i : Instr) : Effects :=
  match i with
  | .cls => { display := true }
  | .ret => { stack := true, canFault := true, movesPc := true }
  | .jp _ => { movesPc := true }
  | .call _ => { stack := true, canFault := true, movesPc := true }
  | .seImm _ _ => { movesPc := true }
  | .sneImm _ _ => { movesPc := true }
  | .seReg _ _ => { movesPc := true }
  | .ldImm x _ => { regs := onlyReg x }
  | .addImm x _ => { regs := onlyReg x }
  | .ldReg x _ => { regs := onlyReg x }
  | .orReg x _ => { regs := onlyReg x }
  | .andReg x _ => { regs := onlyReg x }
  | .xorReg x _ => { regs := onlyReg x }
  | .addReg x _ => { regs := regAndFlag x }
  | .subReg x _ => { regs := regAndFlag x }
  | .shr x _ => { regs := regAndFlag x }
  | .subn x _ => { regs := regAndFlag x }
  | .shl x _ => { regs := regAndFlag x }
  | .sneReg _ _ => { movesPc := true }
  | .ldI _ => { index := true }
  | .jpV0 _ => { movesPc := true }
  | .rnd x _ => { regs := onlyReg x, random := true }
  | .drw _ _ _ => { regs := onlyReg regF, display := true, dirty := true, canFault := true }
  | .skp _ => { canFault := true, movesPc := true }
  | .sknp _ => { canFault := true, movesPc := true }
  | .ldVxDt x => { regs := onlyReg x }
  | .ldVxK x => { regs := onlyReg x, movesPc := true }
  | .ldDtVx _ => { delay := true }
  | .ldStVx _ => { sound := true }
  | .addI _ => { index := true }
  | .ldF _ => { index := true }
  | .ldB _ => { stores := 3, canFault := true }
  | .storeRegs x => { stores := x.toNat + 1, canFault := true }
  | .loadRegs x => { regs := fun z => decide (z.toNat ≤ x.toNat), canFault := true }

/-- The bytes that an instruction stores to: `stores` bytes from the address its meaning uses, I + 0. -/
def StoresTo (i : Instr) (s : State) (a : Nat) : Prop :=
  indexedAddress 0 s ≤ a ∧ a < indexedAddress 0 s + (effects i).stores

end Sys2Proof.Machine
end

