-- ==== Sys2Proof/Certificates/Slice0/Obligations.lean ====
section
/-! DEFINITION. The statements for the provers: what the rules of spec/ say the machine does. -/

open Sys2Proof Sys2Proof.Machine

/-! ### Reset and the invariant -/

/-- R176: the reset values the document states; the font is the parameter FONT. -/
def Obligations.ResetGivesStatedValues : Prop :=
  ∀ s : State, ∃ t, perform .reset s = .next t ∧ (∀ x, readV x t = 0) ∧ t.index = 0 ∧ t.pc = 0x200 ∧
    (∀ row col, pixel t.fb row col = false) ∧
    Config.font.length = 80 ∧ ∀ k, k < 80 → memRead (0x050 + k) t = Config.font[k]?

/-- The reset values the spec chooses itself (decision D15, log entries 4 and 5): SP, STACK, DT, ST, KEYS, FAULT, and 0x00 in
every byte of memory outside 0x050 to 0x09F; the count of random bytes goes on, so that no byte is drawn again (decision D16,
log entry 2). -/
def Obligations.ResetGivesChosenValues : Prop :=
  ∀ s : State, ∃ t, perform .reset s = .next t ∧ t.sp.val = 0 ∧ (∀ k, k < 16 → t.stack[k]? = some 0) ∧ t.dt = 0 ∧ t.st = 0 ∧
    (∀ k, keyPressed k t = false) ∧ t.fault = none ∧ t.draws = s.draws ∧
    ∀ a, a ≤ 0xFFF → a < 0x050 ∨ 0x09F < a → memRead a t = some 0

/-- The invariant holds after reset, whatever the state was before. -/
def Obligations.ResetEstablishesInv : Prop :=
  ∀ s t : State, perform .reset s = .next t → Inv t

/-- Every step keeps the invariant: memory canonical and inside the address space, I <= 0xFFF (R12), PC <= 0x10FE and stack
entries <= 0x1000 (R14). -/
def Obligations.StepKeepsInv : Prop :=
  ∀ s t : State, Inv s → step s = .next t → Inv t

/-- Every state that the host can bring about with any sequence of operations has the invariant. -/
def Obligations.ReachableStatesHaveInv : Prop :=
  ∀ s : State, Reachable s → Inv s

/-! ### Encoding -/

/-- Every well-formed instruction decodes from its own bytes to itself, and the bytes after it are left. -/
def Obligations.DecodeOfEncodeIsIdentity : Prop :=
  ∀ (i : Instr) (rest : List Byte), i.wellFormed = true → decode (encodeBytes i ++ rest) = .ok (i, rest)

/-- Whatever decodes is the encoding of what it decodes to: no bit of a word is dropped. -/
def Obligations.EncodeOfDecodeIsIdentity : Prop :=
  ∀ (hi lo : Byte) (bytes rest : List Byte) (i : Instr), decode (hi :: lo :: bytes) = .ok (i, rest) →
    encodeBytes i = [hi, lo] ∧ rest = bytes

/-- R54, R56: the decoder accepts exactly the recognised words and rejects every other word by name. -/
def Obligations.DecoderAcceptsExactlyRecognisedWords : Prop :=
  ∀ op : Word, (recognised op = true → ∃ i, decodeWord op = .ok i) ∧
    (recognised op = false → decodeWord op = .error (.unrecognised op))

/-- R55: a word is an instruction exactly where it matches a row of the opcode map, and of the 34 rows it matches the row of the
instruction it decodes to and no other. -/
def Obligations.DecoderIsMaskAndCompare : Prop :=
  ∀ op : Word, ((∃ i, decodeWord op = .ok i) ↔ ∃ row ∈ opcodeRows, op &&& row.mask = row.bits) ∧
    ∀ i, decodeWord op = .ok i → ∀ row, row ∈ opcodeRows ∧ op &&& row.mask = row.bits ↔ row = rowOf i

/-- One word of each of the sixteen families, and with them of each format, written out bit by bit from the encodings, decodes
to the instruction it stands for; families 0, 8, E and F have more than one word. -/
def Obligations.SampleWordsDecode : Prop :=
  decodeWord 0b0000000011100000 = .ok .cls ∧ decodeWord 0b0000000011101110 = .ok .ret ∧
  decodeWord 0b0001001000110100 = .ok (.jp 0x234) ∧ decodeWord 0b0010101010111100 = .ok (.call 0xABC) ∧
  decodeWord 0b0011101000000111 = .ok (.seImm 0xA 0x07) ∧ decodeWord 0b0100101011111111 = .ok (.sneImm 0xA 0xFF) ∧
  decodeWord 0b0101101010110000 = .ok (.seReg 0xA 0xB) ∧ decodeWord 0b0110110001011010 = .ok (.ldImm 0xC 0x5A) ∧
  decodeWord 0b0111001100000111 = .ok (.addImm 3 0x07) ∧ decodeWord 0b1000000100100100 = .ok (.addReg 1 2) ∧
  decodeWord 0b1000000100101110 = .ok (.shl 1 2) ∧ decodeWord 0b1001101010110000 = .ok (.sneReg 0xA 0xB) ∧
  decodeWord 0b1010001011110000 = .ok (.ldI 0x2F0) ∧ decodeWord 0b1011001000000001 = .ok (.jpV0 0x201) ∧
  decodeWord 0b1100000100001111 = .ok (.rnd 1 0x0F) ∧ decodeWord 0b1101000000010101 = .ok (.drw 0 1 5) ∧
  decodeWord 0b1110000110011110 = .ok (.skp 1) ∧ decodeWord 0b1110000110100001 = .ok (.sknp 1) ∧
  decodeWord 0b1111001100001010 = .ok (.ldVxK 3) ∧ decodeWord 0b1111001001010101 = .ok (.storeRegs 2)

/-! ### The step -/

/-- R70 to R73: when the two bytes at PC are the word of an instruction, the step is that instruction's execution at the state
with PC advanced by 2 and an empty event list. -/
def Obligations.StepRunsDecodedInstruction : Prop :=
  ∀ (s : State) (hi lo : Byte) (i : Instr), s.fault = none → memRead s.pc.toNat s = some hi →
    memRead (s.pc.toNat + 1) s = some lo → decodeWord (BitVec.ofNat 16 (hi.toNat * 256 + lo.toNat)) = .ok i →
    step s = exec i { s with pc := s.pc + 2, out := [] }

/-- An unrecognised word is a reported no-op: PC + 2, one report with the word and the fetch address (decision D13, log entry
23), nothing else. -/
def Obligations.UnrecognisedWordIsReportedNop : Prop :=
  ∀ (s : State) (op : Word), s.fault = none → NextWord s op → recognised op = false →
    step s = .next { s with pc := s.pc + 2, out := [.unknownOpcode op s.pc] }

/-- A fetch with PC above 0xFFE latches FetchRange, PC unchanged (decision D5, log entry 17). -/
def Obligations.FetchOutOfRangeFaults : Prop :=
  ∀ s : State, s.fault = none → 0xFFE < s.pc.toNat →
    step s = .next { s with fault := some .fetchRange, out := [.fault .fetchRange s.pc none (some s.pc)] }

/-- A step always answers: a next state where no fault is latched, the outcome `halted` where one is (decision D4, log entry
6); no instruction ends in a fault or a refusal outcome. -/
def Obligations.StepStopsExactlyWhenFaulted : Prop :=
  (∀ s : State, s.fault = none → ∃ t, step s = .next t) ∧
    (∀ (s : State) (c : FaultCause), s.fault = some c → step s = .fault (.halted c)) ∧
    ∀ (i : Instr) (s : State), ∃ t, exec i s = .next t

/-- Faults are precise (decision D4): a step that faults changes FAULT and nothing else, and reports the cause, the fetch
address and the word, which is absent only for FetchRange. -/
def Obligations.FaultsArePrecise : Prop :=
  ∀ (s t : State) (c : FaultCause), step s = .next t → t.fault = some c →
    ∃ op detail, t = { s with fault := some c, out := [.fault c s.pc op detail] } ∧
      (op = none ↔ c = .fetchRange) ∧ ∀ w, op = some w → NextWord s w

/-- Only reset clears the latch (decision D4): every other operation that answers a state keeps the first cause. -/
def Obligations.OnlyResetClearsFault : Prop :=
  ∀ (o : Operation) (s t : State) (c : FaultCause), o ≠ .reset → s.fault = some c → perform o s = .next t →
    t.fault = some c

/-- A step returns at most one event, and what the operation before it returned has no influence on it (log entry 1). -/
def Obligations.StepEmitsAtMostOneEvent : Prop :=
  (∀ s t : State, step s = .next t → t.out.length ≤ 1) ∧
    ∀ (s : State) (e : List Event), step { s with out := e } = step s

/-! ### Control transfer -/

/-- R82: 1nnn. -/
def Obligations.JumpSetsPc : Prop :=
  ∀ (nnn : Addr) (s : State),
    decodeWord (BitVec.ofNat 16 (0x1000 + nnn.toNat)) = .ok (.jp nnn) ∧
    ∃ t, exec (.jp nnn) s = .next t ∧ t.pc.toNat = nnn.toNat ∧ t = { s with pc := t.pc }

/-- Bnnn: nnn plus V0, not reduced (decision D26, log entry 17). -/
def Obligations.IndexedJumpAddsV0 : Prop :=
  ∀ (nnn : Addr) (s : State),
    decodeWord (BitVec.ofNat 16 (0xB000 + nnn.toNat)) = .ok (.jpV0 nnn) ∧
    ∃ t, exec (.jpV0 nnn) s = .next t ∧ t.pc.toNat = nnn.toNat + (readV 0#4 s).toNat ∧ t = { s with pc := t.pc }

/-- R84, R85: 3xnn skips on equality, 4xnn on difference, and only PC changes. -/
def Obligations.SkipImmediateComparesVx : Prop :=
  ∀ (x : RegNum) (nn : Byte) (s : State),
    decodeWord (BitVec.ofNat 16 (0x3000 + x.toNat * 256 + nn.toNat)) = .ok (.seImm x nn) ∧
    decodeWord (BitVec.ofNat 16 (0x4000 + x.toNat * 256 + nn.toNat)) = .ok (.sneImm x nn) ∧
    ∃ t u, exec (.seImm x nn) s = .next t ∧ exec (.sneImm x nn) s = .next u ∧
      t = { s with pc := if (readV x s).toNat = nn.toNat then s.pc + 2 else s.pc } ∧
      u = { s with pc := if (readV x s).toNat = nn.toNat then s.pc else s.pc + 2 }

/-- 5xy0 skips on equality, 9xy0 on difference, and only PC changes; with a low nibble other than 0 the word is no instruction
(decision D2, log entry 16). -/
def Obligations.SkipRegisterComparesVxVy : Prop :=
  ∀ (x y : RegNum) (s : State),
    decodeWord (BitVec.ofNat 16 (0x5000 + x.toNat * 256 + y.toNat * 16)) = .ok (.seReg x y) ∧
    decodeWord (BitVec.ofNat 16 (0x9000 + x.toNat * 256 + y.toNat * 16)) = .ok (.sneReg x y) ∧
    (∀ n : Nibble, n ≠ 0 → ∀ i, decodeWord (BitVec.ofNat 16 (0x5000 + x.toNat * 256 + y.toNat * 16 + n.toNat)) ≠ .ok i ∧
      decodeWord (BitVec.ofNat 16 (0x9000 + x.toNat * 256 + y.toNat * 16 + n.toNat)) ≠ .ok i) ∧
    ∃ t u, exec (.seReg x y) s = .next t ∧ exec (.sneReg x y) s = .next u ∧
      t = { s with pc := if (readV x s).toNat = (readV y s).toNat then s.pc + 2 else s.pc } ∧
      u = { s with pc := if (readV x s).toNat = (readV y s).toNat then s.pc else s.pc + 2 }

/-- 2nnn below the full stack: the advanced PC is pushed, SP goes up by one, PC is nnn, the other entries stand. -/
def Obligations.CallPushesAdvancedPc : Prop :=
  ∀ (nnn : Addr) (s : State), s.sp.val < 16 →
    ∃ t, exec (.call nnn) s = .next t ∧ t.stack[s.sp.val]? = some s.pc ∧ t.sp.val = s.sp.val + 1 ∧
      t.pc.toNat = nnn.toNat ∧ (∀ k, k ≠ s.sp.val → t.stack[k]? = s.stack[k]?) ∧
      t = { s with stack := t.stack, sp := t.sp, pc := t.pc }

/-- 00EE with an entry in use: the entry at the pointer minus 1 becomes PC, SP goes down by one, no entry changes. -/
def Obligations.ReturnPopsPc : Prop :=
  ∀ s : State, 0 < s.sp.val →
    ∃ t, exec .ret s = .next t ∧ t.sp.val + 1 = s.sp.val ∧ s.stack[t.sp.val]? = some t.pc ∧
      t = { s with sp := t.sp, pc := t.pc }

/-- 2nnn with SP = 16 and 00EE with SP = 0 fault and change nothing else (decisions D7 and D8, log entry 19). -/
def Obligations.StackFaultsAtBothEnds : Prop :=
  (∀ (nnn : Addr) (s : State), s.sp.val = 16 → exec (.call nnn) s =
      .next (faultedState (s.pc - 2) .stackOverflow (some (BitVec.ofNat 16 (0x2000 + nnn.toNat))) none s)) ∧
    ∀ s : State, s.sp.val = 0 → exec .ret s =
      .next (faultedState (s.pc - 2) .stackUnderflow (some 0x00EE#16) none s)

/-- A return right after a call restores PC to the instruction following the call, wherever the return was fetched from. -/
def Obligations.ReturnUndoesCall : Prop :=
  ∀ (nnn : Addr) (s : State) (p : Word), s.sp.val < 16 →
    ∃ t u, exec (.call nnn) s = .next t ∧ exec .ret { t with pc := p } = .next u ∧
      u = { s with stack := t.stack }

/-! ### Register arithmetic and logic -/

/-- R91: 6xnn. -/
def Obligations.LoadImmediateSetsVx : Prop :=
  ∀ (x : RegNum) (nn : Byte) (s : State),
    decodeWord (BitVec.ofNat 16 (0x6000 + x.toNat * 256 + nn.toNat)) = .ok (.ldImm x nn) ∧
    ∃ t, exec (.ldImm x nn) s = .next t ∧ readV x t = nn ∧ (∀ z, z ≠ x → readV z t = readV z s) ∧ t = { s with v := t.v }

/-- R92: 7xnn adds modulo 256 without a flag, and 256 of them return Vx to its value. -/
def Obligations.AddImmediateWrapsWithoutFlag : Prop :=
  ∀ (x : RegNum) (nn : Byte) (s : State),
    decodeWord (BitVec.ofNat 16 (0x7000 + x.toNat * 256 + nn.toNat)) = .ok (.addImm x nn) ∧
    (∃ t, exec (.addImm x nn) s = .next t ∧ (readV x t).toNat = ((readV x s).toNat + nn.toNat) % 256 ∧
      (∀ z, z ≠ x → readV z t = readV z s) ∧ t = { s with v := t.v }) ∧
    execTimes (.addImm x nn) 256 s = .next s

/-- R93, R95, R96: copy, AND and XOR, bit by bit; no other register, VF among them, and nothing else changes. -/
def Obligations.CopyAndXorWriteVxOnly : Prop :=
  ∀ (x y : RegNum) (s : State),
    decodeWord (BitVec.ofNat 16 (0x8000 + x.toNat * 256 + y.toNat * 16)) = .ok (.ldReg x y) ∧
    decodeWord (BitVec.ofNat 16 (0x8002 + x.toNat * 256 + y.toNat * 16)) = .ok (.andReg x y) ∧
    decodeWord (BitVec.ofNat 16 (0x8003 + x.toNat * 256 + y.toNat * 16)) = .ok (.xorReg x y) ∧
    ∃ t u w, exec (.ldReg x y) s = .next t ∧ exec (.andReg x y) s = .next u ∧ exec (.xorReg x y) s = .next w ∧
      readV x t = readV y s ∧
      (∀ k, (readV x u).getLsbD k = ((readV x s).getLsbD k && (readV y s).getLsbD k)) ∧
      (∀ k, (readV x w).getLsbD k = ((readV x s).getLsbD k ^^ (readV y s).getLsbD k)) ∧
      (∀ z, z ≠ x → readV z t = readV z s ∧ readV z u = readV z s ∧ readV z w = readV z s) ∧
      t = { s with v := t.v } ∧ u = { s with v := u.v } ∧ w = { s with v := w.v }

/-- 8xy1: OR bit by bit; VF is kept unless it is the destination (decision D21, log entry 24). -/
def Obligations.OrWritesVxOnly : Prop :=
  ∀ (x y : RegNum) (s : State),
    ∃ t, exec (.orReg x y) s = .next t ∧
      (∀ k, (readV x t).getLsbD k = ((readV x s).getLsbD k || (readV y s).getLsbD k)) ∧
      (∀ z, z ≠ x → readV z t = readV z s) ∧ t = { s with v := t.v }

/-- 8xy4: the sum modulo 256 in Vx, the carry in VF unless VF is the destination, where the sum stays (decision D14, log
entry 14). -/
def Obligations.AddSetsCarry : Prop :=
  ∀ (x y : RegNum) (s : State),
    ∃ t, exec (.addReg x y) s = .next t ∧
      (readV x t).toNat = ((readV x s).toNat + (readV y s).toNat) % 256 ∧
      (x ≠ regF → readV regF t = if (readV x s).toNat + (readV y s).toNat > 255 then 1 else 0) ∧
      (∀ z, z ≠ x → z ≠ regF → readV z t = readV z s) ∧ t = { s with v := t.v }

/-- 8xy5 and 8xy7: the difference modulo 256 in Vx, VF = 1 when no borrow is needed, unless VF is the destination, where the
difference stays (decision D14, log entry 14). -/
def Obligations.SubtractSetsNoBorrow : Prop :=
  ∀ (x y : RegNum) (s : State),
    ∃ t u, exec (.subReg x y) s = .next t ∧ exec (.subn x y) s = .next u ∧
      (readV x t).toNat = ((readV x s).toNat + 256 - (readV y s).toNat) % 256 ∧
      (readV x u).toNat = ((readV y s).toNat + 256 - (readV x s).toNat) % 256 ∧
      (x ≠ regF → readV regF t = if (readV y s).toNat ≤ (readV x s).toNat then 1 else 0) ∧
      (x ≠ regF → readV regF u = if (readV x s).toNat ≤ (readV y s).toNat then 1 else 0) ∧
      (∀ z, z ≠ x → z ≠ regF → readV z t = readV z s ∧ readV z u = readV z s) ∧
      t = { s with v := t.v } ∧ u = { s with v := u.v }

/-- 8xy6 and 8xyE: Vx shifted in place by one, the bit moved out in VF unless VF is the destination, where the result stays
(decision D14, log entry 14); y makes no difference. -/
def Obligations.ShiftsMoveBitToFlag : Prop :=
  ∀ (x y z : RegNum) (s : State),
    exec (.shr x y) s = exec (.shr x z) s ∧ exec (.shl x y) s = exec (.shl x z) s ∧
    ∃ t u, exec (.shr x y) s = .next t ∧ exec (.shl x y) s = .next u ∧
      (readV x t).toNat = (readV x s).toNat / 2 ∧ (readV x u).toNat = (readV x s).toNat * 2 % 256 ∧
      (x ≠ regF → (readV regF t).toNat = (readV x s).toNat % 2) ∧
      (x ≠ regF → (readV regF u).toNat = (readV x s).toNat / 128) ∧
      (∀ w, w ≠ x → w ≠ regF → readV w t = readV w s ∧ readV w u = readV w s) ∧
      t = { s with v := t.v } ∧ u = { s with v := u.v }

/-- Cxnn, for every free random byte: the byte and nn, so never above nn, and 0 for nn = 0. The byte is the next of the model's
counted free values (decision D16, log entry 2). -/
def Obligations.RandomIsMasked : Prop :=
  ∀ (x : RegNum) (nn : Byte) (s : State),
    decodeWord (BitVec.ofNat 16 (0xC000 + x.toNat * 256 + nn.toNat)) = .ok (.rnd x nn) ∧
    ∃ t, exec (.rnd x nn) s = .next t ∧
      (∀ k, (readV x t).getLsbD k = ((Config.randomByte s.draws).getLsbD k && nn.getLsbD k)) ∧
      (readV x t).toNat ≤ nn.toNat ∧ (nn = 0 → readV x t = 0) ∧ (∀ z, z ≠ x → readV z t = readV z s) ∧
      t = { s with v := t.v, draws := s.draws + 1 }

/-! ### Index register and memory -/

/-- R105: Annn. -/
def Obligations.LoadIndexSetsI : Prop :=
  ∀ (nnn : Addr) (s : State),
    decodeWord (BitVec.ofNat 16 (0xA000 + nnn.toNat)) = .ok (.ldI nnn) ∧
    ∃ t, exec (.ldI nnn) s = .next t ∧ t.index.toNat = nnn.toNat ∧ t = { s with index := t.index }

/-- Fx1E: I plus Vx modulo 4096, and no flag (decision D21, log entry 24). -/
def Obligations.AddIndexWrapsAt4096 : Prop :=
  ∀ (x : RegNum) (s : State),
    ∃ t, exec (.addI x) s = .next t ∧ t.index.toNat = (s.index.toNat + (readV x s).toNat) % 4096 ∧
      t = { s with index := t.index }

/-- R107: Fx29. -/
def Obligations.GlyphAddressFromLowNibble : Prop :=
  ∀ (x : RegNum) (s : State),
    decodeWord (BitVec.ofNat 16 (0xF029 + x.toNat * 256)) = .ok (.ldF x) ∧
    ∃ t, exec (.ldF x) s = .next t ∧ t.index.toNat = 0x050 + 5 * ((readV x s).toNat % 16) ∧
      t = { s with index := t.index }

/-- Fx33 inside memory: hundreds, tens and ones at I, I + 1, I + 2; every other byte reads as before. -/
def Obligations.DecimalDigitsStored : Prop :=
  ∀ (x : RegNum) (s : State), s.mem.wf = true → s.index.toNat ≤ 0xFFD →
    ∃ t, exec (.ldB x) s = .next t ∧
      memRead (indexedAddress 0 s) t = some (BitVec.ofNat 8 ((readV x s).toNat / 100)) ∧
      memRead (indexedAddress 1 s) t = some (BitVec.ofNat 8 ((readV x s).toNat / 10 % 10)) ∧
      memRead (indexedAddress 2 s) t = some (BitVec.ofNat 8 ((readV x s).toNat % 10)) ∧
      (∀ a, a < indexedAddress 0 s ∨ indexedAddress 2 s < a → memRead a t = memRead a s) ∧
      t = { s with mem := t.mem }

/-- Fx55 inside memory: V0 to Vx at I to I + x; every other byte reads as before; I is kept (decision D21, log entry 24). -/
def Obligations.RegistersStoredAtI : Prop :=
  ∀ (x : RegNum) (s : State), s.mem.wf = true → s.index.toNat + x.toNat ≤ 0xFFF →
    ∃ t, exec (.storeRegs x) s = .next t ∧
      (∀ z : RegNum, z.toNat ≤ x.toNat → memRead (indexedAddress z.toNat s) t = some (readV z s)) ∧
      (∀ a, a < indexedAddress 0 s ∨ indexedAddress x.toNat s < a → memRead a t = memRead a s) ∧
      t = { s with mem := t.mem }

/-- Fx65 inside memory: V0 to Vx from I to I + x; the registers above Vx and memory are kept, and so is I (decision D21, log
entry 24). -/
def Obligations.RegistersLoadedFromI : Prop :=
  ∀ (x : RegNum) (s : State), s.index.toNat + x.toNat ≤ 0xFFF →
    ∃ t, exec (.loadRegs x) s = .next t ∧
      (∀ z : RegNum, z.toNat ≤ x.toNat → some (readV z t) = memRead (indexedAddress z.toNat s) s) ∧
      (∀ z : RegNum, x.toNat < z.toNat → readV z t = readV z s) ∧ t = { s with v := t.v }

/-- The four memory instructions whose last address passes 0xFFF fault with the detail 0x1000 and change nothing else
(decision D6, log entry 18); Dxyn with n = 0 is not among them. -/
def Obligations.MemoryRangeFaults : Prop :=
  ∀ (x y : RegNum) (n : Nibble) (s : State),
    (0xFFD < s.index.toNat → exec (.ldB x) s =
      .next (faultedState (s.pc - 2) .memRange (some (BitVec.ofNat 16 (0xF033 + x.toNat * 256))) (some 0x1000#16) s)) ∧
    (0xFFF < s.index.toNat + x.toNat → exec (.storeRegs x) s =
      .next (faultedState (s.pc - 2) .memRange (some (BitVec.ofNat 16 (0xF055 + x.toNat * 256))) (some 0x1000#16) s)) ∧
    (0xFFF < s.index.toNat + x.toNat → exec (.loadRegs x) s =
      .next (faultedState (s.pc - 2) .memRange (some (BitVec.ofNat 16 (0xF065 + x.toNat * 256))) (some 0x1000#16) s)) ∧
    (0 < n.toNat → 0x1000 < s.index.toNat + n.toNat → exec (.drw x y n) s =
      .next (faultedState (s.pc - 2) .memRange
        (some (BitVec.ofNat 16 (0xD000 + x.toNat * 256 + y.toNat * 16 + n.toNat))) (some 0x1000#16) s))

/-! ### Display -/

/-- 00E0: every pixel 0; VF (decision D21, log entry 24), the event list (decision D12, log entry 22) and everything else kept. -/
def Obligations.ClearBlanksDisplay : Prop :=
  ∀ s : State, ∃ t, exec .cls s = .next t ∧ (∀ row col, pixel t.fb row col = false) ∧ t = { s with fb := t.fb }

/-- Dxyn inside memory: exactly the pixels that a set sprite bit addresses are flipped, VF is 1 if one of them was lit and 0
otherwise, one DisplayDirty is emitted (decision D12, log entry 22; the bit order is decision D20, log entry 15), and nothing
else changes, I among it (decision D21, log entry 24). -/
def Obligations.DrawFlipsAddressedPixels : Prop :=
  ∀ (x y : RegNum) (n : Nibble) (s : State), n.toNat = 0 ∨ s.index.toNat + n.toNat ≤ 0x1000 →
    ∃ t, exec (.drw x y n) s = .next t ∧
      (∀ row col, row < 32 → col < 64 → SpriteAddresses s x y n row col →
        pixel t.fb row col = !pixel s.fb row col) ∧
      (∀ row col, row < 32 → col < 64 → ¬SpriteAddresses s x y n row col →
        pixel t.fb row col = pixel s.fb row col) ∧
      ((∃ row col, SpriteAddresses s x y n row col ∧ pixel s.fb row col = true) → readV regF t = 1) ∧
      (¬(∃ row col, SpriteAddresses s x y n row col ∧ pixel s.fb row col = true) → readV regF t = 0) ∧
      (∀ z, z ≠ regF → readV z t = readV z s) ∧
      t = { s with v := t.v, fb := t.fb, out := s.out ++ [.displayDirty] }

/-- The same sprite drawn twice at the same place gives the buffer back, and from a clear buffer the second draw reports a
collision exactly where the sprite has a set bit. With x or y = F the first draw writes VF and so moves the place: those forms are
in `DrawFlipsAddressedPixels`. -/
def Obligations.DrawTwiceRestoresDisplay : Prop :=
  ∀ (x y : RegNum) (n : Nibble) (s : State), x ≠ regF → y ≠ regF → n.toNat = 0 ∨ s.index.toNat + n.toNat ≤ 0x1000 →
    ∃ t u, exec (.drw x y n) s = .next t ∧ exec (.drw x y n) t = .next u ∧ u.fb = s.fb ∧
      ((∀ row col, pixel s.fb row col = false) →
        (readV regF u = 1 ↔ ∃ r c, r < n.toNat ∧ c < 8 ∧ SpriteSet s r c))

/-! ### Keys and timers -/

/-- Ex9E and ExA1 with Vx at most 15: skip on the latched key, and only PC changes. -/
def Obligations.KeySkipsTestLatch : Prop :=
  ∀ (x : RegNum) (s : State), (readV x s).toNat ≤ 0xF →
    ∃ t u, exec (.skp x) s = .next t ∧ exec (.sknp x) s = .next u ∧
      (s.keys[(readV x s).toNat]? = some true → t.pc = s.pc + 2 ∧ u.pc = s.pc) ∧
      (s.keys[(readV x s).toNat]? = some false → t.pc = s.pc ∧ u.pc = s.pc + 2) ∧
      t = { s with pc := t.pc } ∧ u = { s with pc := u.pc }

/-- Ex9E and ExA1 with Vx above 15 fault with the value of Vx as detail and change nothing else (decision D9, log entry 20). -/
def Obligations.KeyRangeFaults : Prop :=
  ∀ (x : RegNum) (s : State), 0xF < (readV x s).toNat →
    exec (.skp x) s = .next (faultedState (s.pc - 2) .keyRange (some (BitVec.ofNat 16 (0xE09E + x.toNat * 256)))
      (some (BitVec.ofNat 16 (readV x s).toNat)) s) ∧
    exec (.sknp x) s = .next (faultedState (s.pc - 2) .keyRange (some (BitVec.ofNat 16 (0xE0A1 + x.toNat * 256)))
      (some (BitVec.ofNat 16 (readV x s).toNat)) s)

/-- R127: Fx0A with no key latched only takes PC back by 2; otherwise Vx receives the least latched key and PC stays advanced. -/
def Obligations.WaitForKeyStallsOrTakesLowest : Prop :=
  ∀ (x : RegNum) (s : State),
    decodeWord (BitVec.ofNat 16 (0xF00A + x.toNat * 256)) = .ok (.ldVxK x) ∧
    ((∀ k, keyPressed k s = false) → exec (.ldVxK x) s = .next { s with pc := s.pc - 2 }) ∧
    ∀ k, keyPressed k s = true → (∀ j : Nibble, j.toNat < k.toNat → keyPressed j s = false) →
      ∃ t, exec (.ldVxK x) s = .next t ∧ (readV x t).toNat = k.toNat ∧ (∀ z, z ≠ x → readV z t = readV z s) ∧
        t = { s with v := t.v }

/-- R128, R129: Fx07 reads the delay timer and Fx15 sets it. -/
def Obligations.DelayTimerReadAndSet : Prop :=
  ∀ (x : RegNum) (s : State),
    decodeWord (BitVec.ofNat 16 (0xF007 + x.toNat * 256)) = .ok (.ldVxDt x) ∧
    decodeWord (BitVec.ofNat 16 (0xF015 + x.toNat * 256)) = .ok (.ldDtVx x) ∧
    ∃ t u, exec (.ldVxDt x) s = .next t ∧ exec (.ldDtVx x) s = .next u ∧ readV x t = s.dt ∧
      (∀ z, z ≠ x → readV z t = readV z s) ∧ t = { s with v := t.v } ∧ u = { s with dt := readV x s }

/-- Fx18 sets the sound timer without an event (decision D17, log entry 22), and the tone follows at once. -/
def Obligations.SoundTimerSetDrivesTone : Prop :=
  ∀ (x : RegNum) (s : State),
    ∃ t, exec (.ldStVx x) s = .next t ∧ t = { s with st := readV x s } ∧ (tone t = true ↔ readV x s ≠ 0)

/-! ### Host operations -/

/-- R160: a tick decrements each timer that is above 0 and emits ToneStop when it takes ST from 1 to 0, whatever FAULT holds;
after k ticks a timer is k lower, with a floor at 0. -/
def Obligations.TickCountsTimersDown : Prop :=
  ∀ (s : State), (∃ t, perform .tick s = .next t ∧ t.dt.toNat = s.dt.toNat - 1 ∧ t.st.toNat = s.st.toNat - 1 ∧
      t = { s with dt := t.dt, st := t.st, out := if s.st.toNat = 1 then [.toneStop] else [] }) ∧
    ∀ k, (ticks k s).dt.toNat = s.dt.toNat - k ∧ (ticks k s).st.toNat = s.st.toNat - k

/-- R138, R139: set_keys replaces all sixteen keys and, reset apart, no other operation changes one; snapshot gives the whole
buffer, row first, and changes nothing. -/
def Obligations.SetKeysReplacesAndSnapshotReads : Prop :=
  (∀ (k : Vector Bool 16) (s : State), ∃ t, perform (.setKeys k) s = .next t ∧
    (∀ j : Nibble, keyPressed j t = k[j.toNat]) ∧ t = { s with keys := t.keys, out := [] }) ∧
  (∀ (o : Operation) (s t : State), (∀ k, o ≠ .setKeys k) → o ≠ .reset → perform o s = .next t → t.keys = s.keys) ∧
  ∀ s : State, perform .snapshot s = .next s ∧
    ∀ row col, row < 32 → col < 64 → ((snapshot s)[row]?.bind fun r => r[col]?) = some (pixel s.fb row col)

/-- load after reset: byte k of an image of at most 3584 bytes goes to 0x200 + k and no other byte changes; a longer image
changes nothing; a load at any other time is refused (decision D19, log entry 12). -/
def Obligations.LoadPlacesImage : Prop :=
  ∀ (image : List Byte) (s : State),
    (atBoot s = true → image.length ≤ 3584 → ∃ t, load image s = .ok t ∧
      (∀ k, k < image.length → memRead (0x200 + k) t = image[k]?) ∧
      (∀ a, a < 0x200 ∨ 0x200 + image.length ≤ a → memRead a t = memRead a s) ∧
      t = { s with mem := t.mem, loaded := true, out := [] }) ∧
    (atBoot s = true → 3584 < image.length → load image s = .tooLarge ∧ perform (.load image) s = .next s) ∧
    (atBoot s = false → perform (.load image) s = .refused .loadOutsideBoot)

/-- load has one use between two resets (decision D19, log entry 12): reset opens it, a load that succeeds closes it, whatever
its image, and so does the first step; once closed it stays so under every operation but reset. -/
def Obligations.LoadHasOneUse : Prop :=
  (∀ s t : State, perform .reset s = .next t → atBoot t = true) ∧
  (∀ (image other : List Byte) (s t : State), load image s = .ok t →
    perform (.load other) t = .refused .loadOutsideBoot) ∧
  (∀ (other : List Byte) (s t : State), atBoot s = true → step s = .next t →
    perform (.load other) t = .refused .loadOutsideBoot) ∧
  ∀ (o : Operation) (s t : State), Reachable s → atBoot s = false → o ≠ .reset → perform o s = .next t →
    atBoot t = false

/-! ### Frames over all instructions -/

/-- Registers: an instruction changes none but its destination registers, VF among them only where it is a flag or a
destination (R10, R11). -/
def Obligations.RegistersFrame : Prop :=
  ∀ (i : Instr) (s t : State) (z : RegNum), exec i s = .next t → (effects i).regs z = false → readV z t = readV z s

/-- Memory: every byte outside the bytes an instruction stores to reads as before; only Fx33 and Fx55 store. -/
def Obligations.MemoryFrame : Prop :=
  ∀ (i : Instr) (s t : State), exec i s = .next t → ∀ a, ¬StoresTo i s a → memRead a t = memRead a s

/-- Special state: I, the stack, the display and the timers change only by the instructions that write them, the count of random
bytes (decision D16, log entry 2) only by Cxnn, and no instruction changes the key latch or the record of a load (log entry
12). -/
def Obligations.SpecialStateFrame : Prop :=
  ∀ (i : Instr) (s t : State), exec i s = .next t →
    ((effects i).index = false → t.index = s.index) ∧
    ((effects i).stack = false → t.stack = s.stack ∧ t.sp = s.sp) ∧
    ((effects i).display = false → t.fb = s.fb) ∧
    ((effects i).delay = false → t.dt = s.dt) ∧ ((effects i).sound = false → t.st = s.st) ∧
    ((effects i).random = false → t.draws = s.draws) ∧ t.keys = s.keys ∧ t.loaded = s.loaded

/-- The 26 instructions that cannot fault leave FAULT alone, all but Dxyn of those that cannot fault emit nothing, and an
instruction that is no transfer, skip or wait leaves the advanced PC unless it faults. -/
def Obligations.FaultEventAndPcFrame : Prop :=
  ∀ (i : Instr) (s t : State), exec i s = .next t →
    ((effects i).canFault = false → t.fault = s.fault ∧ t.out = s.out) ∧
    ((effects i).movesPc = false → t.pc = s.pc ∨ (t.pc = s.pc - 2 ∧ (effects i).canFault = true ∧ t.fault ≠ none))

/-! ### Whole-machine rules -/

/-- A parked machine and one stalled in Fx0A stand still under any number of steps, but for the event list of the latest
operation. -/
def Obligations.ParkedAndStalledStandStill : Prop :=
  ∀ (s : State) (n : Nat), Parked s ∨ Stalled s → Host.Core.run Sys2Proof.core (n + 1) s = .next { s with out := [] }

/-- A store is seen by the very next fetch (decision D11, log entry 21): after Fx55 over the next instruction, the step runs
the word that V0 and V1 make. -/
def Obligations.StoreIsSeenByNextFetch : Prop :=
  ∀ (x : RegNum) (s : State) (i : Instr), s.fault = none → s.mem.wf = true → s.index = s.pc → 1 ≤ x.toNat →
    s.index.toNat + x.toNat ≤ 0xFFF →
    decodeWord (BitVec.ofNat 16 ((readV 0#4 s).toNat * 256 + (readV 1#4 s).toNat)) = .ok i →
    ∃ t, exec (.storeRegs x) s = .next t ∧ step t = exec i { t with pc := t.pc + 2, out := [] }

/-- No instruction reads the sound timer: but for Fx18, which replaces it, an instruction carries any value of ST along
unchanged and does everything else as it would with another value. -/
def Obligations.SoundTimerIsNeverRead : Prop :=
  ∀ (i : Instr) (s : State) (b : Byte),
    ((effects i).sound = false → exec i { s with st := b } = mapNext (fun t => { t with st := b }) (exec i s)) ∧
    ((effects i).sound = true → exec i { s with st := b } = exec i s)
end

