-- ==== Sys2Proof/Laws/Encoding.lean ====
section
/-! SUPPORT. The value of an encoded word and the value of each field, one lemma per format and field; that the rows of the
opcode map are disjoint; which fixed digits a mask selects. -/

namespace Sys2Proof

theorem toNat_append_add {m n : Nat} (a : BitVec m) (b : BitVec n) : (a ++ b).toNat = a.toNat * 2 ^ n + b.toNat := by
  rw [BitVec.toNat_append, ← Nat.shiftLeft_add_eq_or_of_lt b.isLt, Nat.shiftLeft_eq]

/-! ### The value of a word -/

theorem packAddr_toNat (f : Nibble) (nnn : Addr) : (packAddr f nnn).toNat = f.toNat * 4096 + nnn.toNat :=
  toNat_append_add f nnn

theorem packByte_toNat (f : Nibble) (x : RegNum) (nn : Byte) :
    (packByte f x nn).toNat = f.toNat * 4096 + x.toNat * 256 + nn.toNat := by
  have h1 : (packByte f x nn).toNat = f.toNat * 4096 + (x ++ nn : BitVec 12).toNat := toNat_append_add f (x ++ nn : BitVec 12)
  have h2 : (x ++ nn : BitVec 12).toNat = x.toNat * 256 + nn.toNat := toNat_append_add x nn
  rw [h1, h2, Nat.add_assoc]

theorem packNibbles_toNat (f : Nibble) (x y : RegNum) (n : Nibble) :
    (packNibbles f x y n).toNat = f.toNat * 4096 + x.toNat * 256 + y.toNat * 16 + n.toNat := by
  have h1 : (packNibbles f x y n).toNat = f.toNat * 4096 + (x ++ (y ++ n : BitVec 8) : BitVec 12).toNat :=
    toNat_append_add f (x ++ (y ++ n : BitVec 8) : BitVec 12)
  have h2 : (x ++ (y ++ n : BitVec 8) : BitVec 12).toNat = x.toNat * 256 + (y ++ n : BitVec 8).toNat :=
    toNat_append_add x (y ++ n : BitVec 8)
  have h3 : (y ++ n : BitVec 8).toNat = y.toNat * 16 + n.toNat := toNat_append_add y n
  rw [h1, h2, h3, Nat.add_assoc, Nat.add_assoc]

/-- The value of a fetched word: the high byte times 256 plus the low byte (spec/20_memory.md R33). -/
theorem wordOfBytes_toNat (hi lo : Byte) : (wordOfBytes hi lo).toNat = hi.toNat * 256 + lo.toNat := toNat_append_add hi lo

/-! ### The value of a field -/

theorem fieldFamily_toNat (op : Word) : (fieldFamily op).toNat = op.toNat / 4096 := by
  simp only [fieldFamily, BitVec.extractLsb'_toNat, Nat.shiftRight_eq_div_pow]; omega

theorem fieldX_toNat (op : Word) : (fieldX op).toNat = op.toNat / 256 % 16 := by
  simp only [fieldX, BitVec.extractLsb'_toNat, Nat.shiftRight_eq_div_pow]

theorem fieldY_toNat (op : Word) : (fieldY op).toNat = op.toNat / 16 % 16 := by
  simp only [fieldY, BitVec.extractLsb'_toNat, Nat.shiftRight_eq_div_pow]

theorem fieldN_toNat (op : Word) : (fieldN op).toNat = op.toNat % 16 := by
  simp [fieldN, BitVec.extractLsb'_toNat]

theorem fieldNn_toNat (op : Word) : (fieldNn op).toNat = op.toNat % 256 := by
  simp [fieldNn, BitVec.extractLsb'_toNat]

theorem fieldNnn_toNat (op : Word) : (fieldNnn op).toNat = op.toNat % 4096 := by
  simp [fieldNnn, BitVec.extractLsb'_toNat]

/-! ### The fields of an encoded word -/

@[simp] theorem family_packAddr (f : Nibble) (nnn : Addr) : fieldFamily (packAddr f nnn) = f :=
  BitVec.eq_of_toNat_eq (by rw [fieldFamily_toNat, packAddr_toNat]; omega)

@[simp] theorem nnn_packAddr (f : Nibble) (nnn : Addr) : fieldNnn (packAddr f nnn) = nnn :=
  BitVec.eq_of_toNat_eq (by rw [fieldNnn_toNat, packAddr_toNat]; omega)

@[simp] theorem family_packByte (f : Nibble) (x : RegNum) (nn : Byte) : fieldFamily (packByte f x nn) = f :=
  BitVec.eq_of_toNat_eq (by rw [fieldFamily_toNat, packByte_toNat]; omega)

@[simp] theorem x_packByte (f : Nibble) (x : RegNum) (nn : Byte) : fieldX (packByte f x nn) = x :=
  BitVec.eq_of_toNat_eq (by rw [fieldX_toNat, packByte_toNat]; omega)

@[simp] theorem nn_packByte (f : Nibble) (x : RegNum) (nn : Byte) : fieldNn (packByte f x nn) = nn :=
  BitVec.eq_of_toNat_eq (by rw [fieldNn_toNat, packByte_toNat]; omega)

@[simp] theorem family_packNibbles (f : Nibble) (x y : RegNum) (n : Nibble) :
    fieldFamily (packNibbles f x y n) = f :=
  BitVec.eq_of_toNat_eq (by rw [fieldFamily_toNat, packNibbles_toNat]; omega)

@[simp] theorem x_packNibbles (f : Nibble) (x y : RegNum) (n : Nibble) : fieldX (packNibbles f x y n) = x :=
  BitVec.eq_of_toNat_eq (by rw [fieldX_toNat, packNibbles_toNat]; omega)

@[simp] theorem y_packNibbles (f : Nibble) (x y : RegNum) (n : Nibble) : fieldY (packNibbles f x y n) = y :=
  BitVec.eq_of_toNat_eq (by rw [fieldY_toNat, packNibbles_toNat]; omega)

@[simp] theorem n_packNibbles (f : Nibble) (x y : RegNum) (n : Nibble) : fieldN (packNibbles f x y n) = n :=
  BitVec.eq_of_toNat_eq (by rw [fieldN_toNat, packNibbles_toNat]; omega)

/-! ### Words and their fields -/

/-- A word is its four nibbles. -/
theorem word_of_nibbles (op : Word) : packNibbles (fieldFamily op) (fieldX op) (fieldY op) (fieldN op) = op :=
  BitVec.eq_of_toNat_eq (by
    rw [packNibbles_toNat, fieldFamily_toNat, fieldX_toNat, fieldY_toNat, fieldN_toNat]; omega)

/-- A word is its family, register and byte. -/
theorem word_of_byte (op : Word) : packByte (fieldFamily op) (fieldX op) (fieldNn op) = op :=
  BitVec.eq_of_toNat_eq (by rw [packByte_toNat, fieldFamily_toNat, fieldX_toNat, fieldNn_toNat]; omega)

/-- A word is its family and address. -/
theorem word_of_addr (op : Word) : packAddr (fieldFamily op) (fieldNnn op) = op :=
  BitVec.eq_of_toNat_eq (by rw [packAddr_toNat, fieldFamily_toNat, fieldNnn_toNat]; omega)

/-- The two bytes of a word give the word back (spec/20_memory.md R33). -/
@[simp] theorem wordOfBytes_split (op : Word) : wordOfBytes (op.extractLsb' 8 8) (op.extractLsb' 0 8) = op :=
  BitVec.eq_of_toNat_eq (by
    rw [wordOfBytes_toNat]
    simp only [BitVec.extractLsb'_toNat, Nat.shiftRight_eq_div_pow]; omega)

/-- A word with the value of two bytes is the word of those bytes. -/
theorem wordOfBytes_eq {hi lo : Byte} {op : Word} (h : op.toNat = hi.toNat * 256 + lo.toNat) : wordOfBytes hi lo = op :=
  BitVec.eq_of_toNat_eq (by rw [wordOfBytes_toNat, h])

/-- Decoding two bytes is decoding their word. -/
theorem decode_pair (hi lo : Byte) (rest : List Byte) (i : Instr) (h : decodeWord (wordOfBytes hi lo) = .ok i) :
    decode (hi :: lo :: rest) = .ok (i, rest) := by
  simp only [decode, h]

/-! ### The opcode map -/

/-- No two rows of the opcode map share a word (spec/30_encoding.md R54: "the rows are disjoint"). -/
theorem opcodeRows_disjoint :
    opcodeRows.Pairwise fun a b => (a.bits ^^^ b.bits) &&& a.mask &&& b.mask ≠ 0 := by decide

/-- The row of every instruction is one of the 34. -/
theorem rowOf_mem (i : Instr) : rowOf i ∈ opcodeRows := by
  cases i <;> (simp only [rowOf]; decide)

/-- A mask of whole digits acts digit by digit. -/
theorem packNibbles_and (f f' : Nibble) (x x' y y' : RegNum) (n n' : Nibble) :
    packNibbles f x y n &&& packNibbles f' x' y' n' = packNibbles (f &&& f') (x &&& x') (y &&& y') (n &&& n') := by
  have h1 : (y ++ n : BitVec 8) &&& (y' ++ n' : BitVec 8) = ((y &&& y') ++ (n &&& n') : BitVec 8) := BitVec.and_append
  have h2 : (x ++ (y ++ n : BitVec 8) : BitVec 12) &&& (x' ++ (y' ++ n' : BitVec 8) : BitVec 12) =
      ((x &&& x') ++ ((y ++ n : BitVec 8) &&& (y' ++ n' : BitVec 8)) : BitVec 12) := BitVec.and_append
  have h3 : packNibbles f x y n &&& packNibbles f' x' y' n' =
      ((f &&& f') ++ ((x ++ (y ++ n : BitVec 8) : BitVec 12) &&& (x' ++ (y' ++ n' : BitVec 8) : BitVec 12)) : BitVec 16) :=
    BitVec.and_append
  rw [h3, h2, h1]; rfl

/-- Four nibbles are equal as a word exactly where they are equal one by one. -/
theorem packNibbles_inj {f f' : Nibble} {x x' y y' : RegNum} {n n' : Nibble} :
    packNibbles f x y n = packNibbles f' x' y' n' ↔ f = f' ∧ x = x' ∧ y = y' ∧ n = n' := by
  constructor
  · intro h
    refine ⟨?_, ?_, ?_, ?_⟩
    · simpa using congrArg fieldFamily h
    · simpa using congrArg fieldX h
    · simpa using congrArg fieldY h
    · simpa using congrArg fieldN h
  · rintro ⟨rfl, rfl, rfl, rfl⟩; rfl

/-- Which digits a masked comparison fixes (spec/30_encoding.md R55). -/
theorem rowMatches_iff (op : Word) (f x y n mf mx my mn : Nibble) :
    rowMatches op ⟨packNibbles f x y n, packNibbles mf mx my mn⟩ = true ↔
      fieldFamily op &&& mf = f ∧ fieldX op &&& mx = x ∧ fieldY op &&& my = y ∧ fieldN op &&& mn = n := by
  unfold rowMatches
  rw [beq_iff_eq]
  conv => lhs; lhs; rw [← word_of_nibbles op]
  rw [packNibbles_and, packNibbles_inj]

/-- Format ADDR in four nibbles. -/
theorem packAddr_nibbles (f : Nibble) (nnn : Addr) :
    packAddr f nnn = packNibbles f (fieldX (packAddr f nnn)) (fieldY (packAddr f nnn)) (fieldN (packAddr f nnn)) := by
  conv => lhs; rw [← word_of_nibbles (packAddr f nnn), family_packAddr]

/-- The low byte of a word is its two low nibbles. -/
theorem fieldNn_nibbles (op : Word) : (fieldNn op).toNat = (fieldY op).toNat * 16 + (fieldN op).toNat := by
  rw [fieldNn_toNat, fieldY_toNat, fieldN_toNat]; omega

end Sys2Proof
end

