-- ==== Sys2Proof/Laws/State.lean ====
section
/-! SUPPORT. One lemma per field per named update of State, so that no proof unfolds a record update. -/

namespace Sys2Proof.Machine

/-! ### writeV -/

@[simp] theorem writeV_v (x : RegNum) (b : Byte) (s : State) : (writeV x b s).v = s.v.set x.toNat b := rfl
@[simp] theorem writeV_index (x : RegNum) (b : Byte) (s : State) : (writeV x b s).index = s.index := rfl
@[simp] theorem writeV_pc (x : RegNum) (b : Byte) (s : State) : (writeV x b s).pc = s.pc := rfl
@[simp] theorem writeV_sp (x : RegNum) (b : Byte) (s : State) : (writeV x b s).sp = s.sp := rfl
@[simp] theorem writeV_stack (x : RegNum) (b : Byte) (s : State) : (writeV x b s).stack = s.stack := rfl
@[simp] theorem writeV_mem (x : RegNum) (b : Byte) (s : State) : (writeV x b s).mem = s.mem := rfl
@[simp] theorem writeV_fb (x : RegNum) (b : Byte) (s : State) : (writeV x b s).fb = s.fb := rfl
@[simp] theorem writeV_dt (x : RegNum) (b : Byte) (s : State) : (writeV x b s).dt = s.dt := rfl
@[simp] theorem writeV_st (x : RegNum) (b : Byte) (s : State) : (writeV x b s).st = s.st := rfl
@[simp] theorem writeV_keys (x : RegNum) (b : Byte) (s : State) : (writeV x b s).keys = s.keys := rfl
@[simp] theorem writeV_fault (x : RegNum) (b : Byte) (s : State) : (writeV x b s).fault = s.fault := rfl
@[simp] theorem writeV_loaded (x : RegNum) (b : Byte) (s : State) : (writeV x b s).loaded = s.loaded := rfl
@[simp] theorem writeV_draws (x : RegNum) (b : Byte) (s : State) : (writeV x b s).draws = s.draws := rfl
@[simp] theorem writeV_out (x : RegNum) (b : Byte) (s : State) : (writeV x b s).out = s.out := rfl

/-! ### setIndex -/

@[simp] theorem setIndex_v (a : Word) (s : State) : (setIndex a s).v = s.v := rfl
@[simp] theorem setIndex_index (a : Word) (s : State) : (setIndex a s).index = a := rfl
@[simp] theorem setIndex_pc (a : Word) (s : State) : (setIndex a s).pc = s.pc := rfl
@[simp] theorem setIndex_sp (a : Word) (s : State) : (setIndex a s).sp = s.sp := rfl
@[simp] theorem setIndex_stack (a : Word) (s : State) : (setIndex a s).stack = s.stack := rfl
@[simp] theorem setIndex_mem (a : Word) (s : State) : (setIndex a s).mem = s.mem := rfl
@[simp] theorem setIndex_fb (a : Word) (s : State) : (setIndex a s).fb = s.fb := rfl
@[simp] theorem setIndex_dt (a : Word) (s : State) : (setIndex a s).dt = s.dt := rfl
@[simp] theorem setIndex_st (a : Word) (s : State) : (setIndex a s).st = s.st := rfl
@[simp] theorem setIndex_keys (a : Word) (s : State) : (setIndex a s).keys = s.keys := rfl
@[simp] theorem setIndex_fault (a : Word) (s : State) : (setIndex a s).fault = s.fault := rfl
@[simp] theorem setIndex_loaded (a : Word) (s : State) : (setIndex a s).loaded = s.loaded := rfl
@[simp] theorem setIndex_draws (a : Word) (s : State) : (setIndex a s).draws = s.draws := rfl
@[simp] theorem setIndex_out (a : Word) (s : State) : (setIndex a s).out = s.out := rfl

/-! ### setPc -/

@[simp] theorem setPc_v (a : Word) (s : State) : (setPc a s).v = s.v := rfl
@[simp] theorem setPc_index (a : Word) (s : State) : (setPc a s).index = s.index := rfl
@[simp] theorem setPc_pc (a : Word) (s : State) : (setPc a s).pc = a := rfl
@[simp] theorem setPc_sp (a : Word) (s : State) : (setPc a s).sp = s.sp := rfl
@[simp] theorem setPc_stack (a : Word) (s : State) : (setPc a s).stack = s.stack := rfl
@[simp] theorem setPc_mem (a : Word) (s : State) : (setPc a s).mem = s.mem := rfl
@[simp] theorem setPc_fb (a : Word) (s : State) : (setPc a s).fb = s.fb := rfl
@[simp] theorem setPc_dt (a : Word) (s : State) : (setPc a s).dt = s.dt := rfl
@[simp] theorem setPc_st (a : Word) (s : State) : (setPc a s).st = s.st := rfl
@[simp] theorem setPc_keys (a : Word) (s : State) : (setPc a s).keys = s.keys := rfl
@[simp] theorem setPc_fault (a : Word) (s : State) : (setPc a s).fault = s.fault := rfl
@[simp] theorem setPc_loaded (a : Word) (s : State) : (setPc a s).loaded = s.loaded := rfl
@[simp] theorem setPc_draws (a : Word) (s : State) : (setPc a s).draws = s.draws := rfl
@[simp] theorem setPc_out (a : Word) (s : State) : (setPc a s).out = s.out := rfl

/-! ### setDt -/

@[simp] theorem setDt_v (b : Byte) (s : State) : (setDt b s).v = s.v := rfl
@[simp] theorem setDt_index (b : Byte) (s : State) : (setDt b s).index = s.index := rfl
@[simp] theorem setDt_pc (b : Byte) (s : State) : (setDt b s).pc = s.pc := rfl
@[simp] theorem setDt_sp (b : Byte) (s : State) : (setDt b s).sp = s.sp := rfl
@[simp] theorem setDt_stack (b : Byte) (s : State) : (setDt b s).stack = s.stack := rfl
@[simp] theorem setDt_mem (b : Byte) (s : State) : (setDt b s).mem = s.mem := rfl
@[simp] theorem setDt_fb (b : Byte) (s : State) : (setDt b s).fb = s.fb := rfl
@[simp] theorem setDt_dt (b : Byte) (s : State) : (setDt b s).dt = b := rfl
@[simp] theorem setDt_st (b : Byte) (s : State) : (setDt b s).st = s.st := rfl
@[simp] theorem setDt_keys (b : Byte) (s : State) : (setDt b s).keys = s.keys := rfl
@[simp] theorem setDt_fault (b : Byte) (s : State) : (setDt b s).fault = s.fault := rfl
@[simp] theorem setDt_loaded (b : Byte) (s : State) : (setDt b s).loaded = s.loaded := rfl
@[simp] theorem setDt_draws (b : Byte) (s : State) : (setDt b s).draws = s.draws := rfl
@[simp] theorem setDt_out (b : Byte) (s : State) : (setDt b s).out = s.out := rfl

/-! ### setSt -/

@[simp] theorem setSt_v (b : Byte) (s : State) : (setSt b s).v = s.v := rfl
@[simp] theorem setSt_index (b : Byte) (s : State) : (setSt b s).index = s.index := rfl
@[simp] theorem setSt_pc (b : Byte) (s : State) : (setSt b s).pc = s.pc := rfl
@[simp] theorem setSt_sp (b : Byte) (s : State) : (setSt b s).sp = s.sp := rfl
@[simp] theorem setSt_stack (b : Byte) (s : State) : (setSt b s).stack = s.stack := rfl
@[simp] theorem setSt_mem (b : Byte) (s : State) : (setSt b s).mem = s.mem := rfl
@[simp] theorem setSt_fb (b : Byte) (s : State) : (setSt b s).fb = s.fb := rfl
@[simp] theorem setSt_dt (b : Byte) (s : State) : (setSt b s).dt = s.dt := rfl
@[simp] theorem setSt_st (b : Byte) (s : State) : (setSt b s).st = b := rfl
@[simp] theorem setSt_keys (b : Byte) (s : State) : (setSt b s).keys = s.keys := rfl
@[simp] theorem setSt_fault (b : Byte) (s : State) : (setSt b s).fault = s.fault := rfl
@[simp] theorem setSt_loaded (b : Byte) (s : State) : (setSt b s).loaded = s.loaded := rfl
@[simp] theorem setSt_draws (b : Byte) (s : State) : (setSt b s).draws = s.draws := rfl
@[simp] theorem setSt_out (b : Byte) (s : State) : (setSt b s).out = s.out := rfl

/-! ### setFb -/

@[simp] theorem setFb_v (d : Display) (s : State) : (setFb d s).v = s.v := rfl
@[simp] theorem setFb_index (d : Display) (s : State) : (setFb d s).index = s.index := rfl
@[simp] theorem setFb_pc (d : Display) (s : State) : (setFb d s).pc = s.pc := rfl
@[simp] theorem setFb_sp (d : Display) (s : State) : (setFb d s).sp = s.sp := rfl
@[simp] theorem setFb_stack (d : Display) (s : State) : (setFb d s).stack = s.stack := rfl
@[simp] theorem setFb_mem (d : Display) (s : State) : (setFb d s).mem = s.mem := rfl
@[simp] theorem setFb_fb (d : Display) (s : State) : (setFb d s).fb = d := rfl
@[simp] theorem setFb_dt (d : Display) (s : State) : (setFb d s).dt = s.dt := rfl
@[simp] theorem setFb_st (d : Display) (s : State) : (setFb d s).st = s.st := rfl
@[simp] theorem setFb_keys (d : Display) (s : State) : (setFb d s).keys = s.keys := rfl
@[simp] theorem setFb_fault (d : Display) (s : State) : (setFb d s).fault = s.fault := rfl
@[simp] theorem setFb_loaded (d : Display) (s : State) : (setFb d s).loaded = s.loaded := rfl
@[simp] theorem setFb_draws (d : Display) (s : State) : (setFb d s).draws = s.draws := rfl
@[simp] theorem setFb_out (d : Display) (s : State) : (setFb d s).out = s.out := rfl

/-! ### advancePc -/

@[simp] theorem advancePc_v (s : State) : (advancePc s).v = s.v := rfl
@[simp] theorem advancePc_index (s : State) : (advancePc s).index = s.index := rfl
@[simp] theorem advancePc_pc (s : State) : (advancePc s).pc = s.pc + 2 := rfl
@[simp] theorem advancePc_sp (s : State) : (advancePc s).sp = s.sp := rfl
@[simp] theorem advancePc_stack (s : State) : (advancePc s).stack = s.stack := rfl
@[simp] theorem advancePc_mem (s : State) : (advancePc s).mem = s.mem := rfl
@[simp] theorem advancePc_fb (s : State) : (advancePc s).fb = s.fb := rfl
@[simp] theorem advancePc_dt (s : State) : (advancePc s).dt = s.dt := rfl
@[simp] theorem advancePc_st (s : State) : (advancePc s).st = s.st := rfl
@[simp] theorem advancePc_keys (s : State) : (advancePc s).keys = s.keys := rfl
@[simp] theorem advancePc_fault (s : State) : (advancePc s).fault = s.fault := rfl
@[simp] theorem advancePc_loaded (s : State) : (advancePc s).loaded = s.loaded := rfl
@[simp] theorem advancePc_draws (s : State) : (advancePc s).draws = s.draws := rfl
@[simp] theorem advancePc_out (s : State) : (advancePc s).out = s.out := rfl

/-! ### rewindPc -/

@[simp] theorem rewindPc_v (s : State) : (rewindPc s).v = s.v := rfl
@[simp] theorem rewindPc_index (s : State) : (rewindPc s).index = s.index := rfl
@[simp] theorem rewindPc_pc (s : State) : (rewindPc s).pc = s.pc - 2 := rfl
@[simp] theorem rewindPc_sp (s : State) : (rewindPc s).sp = s.sp := rfl
@[simp] theorem rewindPc_stack (s : State) : (rewindPc s).stack = s.stack := rfl
@[simp] theorem rewindPc_mem (s : State) : (rewindPc s).mem = s.mem := rfl
@[simp] theorem rewindPc_fb (s : State) : (rewindPc s).fb = s.fb := rfl
@[simp] theorem rewindPc_dt (s : State) : (rewindPc s).dt = s.dt := rfl
@[simp] theorem rewindPc_st (s : State) : (rewindPc s).st = s.st := rfl
@[simp] theorem rewindPc_keys (s : State) : (rewindPc s).keys = s.keys := rfl
@[simp] theorem rewindPc_fault (s : State) : (rewindPc s).fault = s.fault := rfl
@[simp] theorem rewindPc_loaded (s : State) : (rewindPc s).loaded = s.loaded := rfl
@[simp] theorem rewindPc_draws (s : State) : (rewindPc s).draws = s.draws := rfl
@[simp] theorem rewindPc_out (s : State) : (rewindPc s).out = s.out := rfl

/-! ### clearOut -/

@[simp] theorem clearOut_v (s : State) : (clearOut s).v = s.v := rfl
@[simp] theorem clearOut_index (s : State) : (clearOut s).index = s.index := rfl
@[simp] theorem clearOut_pc (s : State) : (clearOut s).pc = s.pc := rfl
@[simp] theorem clearOut_sp (s : State) : (clearOut s).sp = s.sp := rfl
@[simp] theorem clearOut_stack (s : State) : (clearOut s).stack = s.stack := rfl
@[simp] theorem clearOut_mem (s : State) : (clearOut s).mem = s.mem := rfl
@[simp] theorem clearOut_fb (s : State) : (clearOut s).fb = s.fb := rfl
@[simp] theorem clearOut_dt (s : State) : (clearOut s).dt = s.dt := rfl
@[simp] theorem clearOut_st (s : State) : (clearOut s).st = s.st := rfl
@[simp] theorem clearOut_keys (s : State) : (clearOut s).keys = s.keys := rfl
@[simp] theorem clearOut_fault (s : State) : (clearOut s).fault = s.fault := rfl
@[simp] theorem clearOut_loaded (s : State) : (clearOut s).loaded = s.loaded := rfl
@[simp] theorem clearOut_draws (s : State) : (clearOut s).draws = s.draws := rfl
@[simp] theorem clearOut_out (s : State) : (clearOut s).out = [] := rfl

/-! ### emit -/

@[simp] theorem emit_v (e : Event) (s : State) : (emit e s).v = s.v := rfl
@[simp] theorem emit_index (e : Event) (s : State) : (emit e s).index = s.index := rfl
@[simp] theorem emit_pc (e : Event) (s : State) : (emit e s).pc = s.pc := rfl
@[simp] theorem emit_sp (e : Event) (s : State) : (emit e s).sp = s.sp := rfl
@[simp] theorem emit_stack (e : Event) (s : State) : (emit e s).stack = s.stack := rfl
@[simp] theorem emit_mem (e : Event) (s : State) : (emit e s).mem = s.mem := rfl
@[simp] theorem emit_fb (e : Event) (s : State) : (emit e s).fb = s.fb := rfl
@[simp] theorem emit_dt (e : Event) (s : State) : (emit e s).dt = s.dt := rfl
@[simp] theorem emit_st (e : Event) (s : State) : (emit e s).st = s.st := rfl
@[simp] theorem emit_keys (e : Event) (s : State) : (emit e s).keys = s.keys := rfl
@[simp] theorem emit_fault (e : Event) (s : State) : (emit e s).fault = s.fault := rfl
@[simp] theorem emit_loaded (e : Event) (s : State) : (emit e s).loaded = s.loaded := rfl
@[simp] theorem emit_draws (e : Event) (s : State) : (emit e s).draws = s.draws := rfl
@[simp] theorem emit_out (e : Event) (s : State) : (emit e s).out = s.out ++ [e] := rfl

/-! ### raiseAt -/

@[simp] theorem raiseAt_v (p : Word) (c : FaultCause) (o d : Option Word) (s : State) : (raiseAt p c o d s).v = s.v := rfl
@[simp] theorem raiseAt_index (p : Word) (c : FaultCause) (o d : Option Word) (s : State) : (raiseAt p c o d s).index = s.index := rfl
@[simp] theorem raiseAt_pc (p : Word) (c : FaultCause) (o d : Option Word) (s : State) : (raiseAt p c o d s).pc = p := rfl
@[simp] theorem raiseAt_sp (p : Word) (c : FaultCause) (o d : Option Word) (s : State) : (raiseAt p c o d s).sp = s.sp := rfl
@[simp] theorem raiseAt_stack (p : Word) (c : FaultCause) (o d : Option Word) (s : State) : (raiseAt p c o d s).stack = s.stack := rfl
@[simp] theorem raiseAt_mem (p : Word) (c : FaultCause) (o d : Option Word) (s : State) : (raiseAt p c o d s).mem = s.mem := rfl
@[simp] theorem raiseAt_fb (p : Word) (c : FaultCause) (o d : Option Word) (s : State) : (raiseAt p c o d s).fb = s.fb := rfl
@[simp] theorem raiseAt_dt (p : Word) (c : FaultCause) (o d : Option Word) (s : State) : (raiseAt p c o d s).dt = s.dt := rfl
@[simp] theorem raiseAt_st (p : Word) (c : FaultCause) (o d : Option Word) (s : State) : (raiseAt p c o d s).st = s.st := rfl
@[simp] theorem raiseAt_keys (p : Word) (c : FaultCause) (o d : Option Word) (s : State) : (raiseAt p c o d s).keys = s.keys := rfl
@[simp] theorem raiseAt_fault (p : Word) (c : FaultCause) (o d : Option Word) (s : State) : (raiseAt p c o d s).fault = some c := rfl
@[simp] theorem raiseAt_loaded (p : Word) (c : FaultCause) (o d : Option Word) (s : State) : (raiseAt p c o d s).loaded = s.loaded := rfl
@[simp] theorem raiseAt_draws (p : Word) (c : FaultCause) (o d : Option Word) (s : State) : (raiseAt p c o d s).draws = s.draws := rfl
@[simp] theorem raiseAt_out (p : Word) (c : FaultCause) (o d : Option Word) (s : State) : (raiseAt p c o d s).out = s.out ++ [.fault c p o d] := rfl

/-! ### markLoaded -/

@[simp] theorem markLoaded_v (s : State) : (markLoaded s).v = s.v := rfl
@[simp] theorem markLoaded_index (s : State) : (markLoaded s).index = s.index := rfl
@[simp] theorem markLoaded_pc (s : State) : (markLoaded s).pc = s.pc := rfl
@[simp] theorem markLoaded_sp (s : State) : (markLoaded s).sp = s.sp := rfl
@[simp] theorem markLoaded_stack (s : State) : (markLoaded s).stack = s.stack := rfl
@[simp] theorem markLoaded_mem (s : State) : (markLoaded s).mem = s.mem := rfl
@[simp] theorem markLoaded_fb (s : State) : (markLoaded s).fb = s.fb := rfl
@[simp] theorem markLoaded_dt (s : State) : (markLoaded s).dt = s.dt := rfl
@[simp] theorem markLoaded_st (s : State) : (markLoaded s).st = s.st := rfl
@[simp] theorem markLoaded_keys (s : State) : (markLoaded s).keys = s.keys := rfl
@[simp] theorem markLoaded_fault (s : State) : (markLoaded s).fault = s.fault := rfl
@[simp] theorem markLoaded_loaded (s : State) : (markLoaded s).loaded = true := rfl
@[simp] theorem markLoaded_draws (s : State) : (markLoaded s).draws = s.draws := rfl
@[simp] theorem markLoaded_out (s : State) : (markLoaded s).out = s.out := rfl

/-! ### resetBlock -/

@[simp] theorem resetBlock_v (s : State) : (resetBlock s).v = State.reset.v := rfl
@[simp] theorem resetBlock_index (s : State) : (resetBlock s).index = State.reset.index := rfl
@[simp] theorem resetBlock_pc (s : State) : (resetBlock s).pc = State.reset.pc := rfl
@[simp] theorem resetBlock_sp (s : State) : (resetBlock s).sp = State.reset.sp := rfl
@[simp] theorem resetBlock_stack (s : State) : (resetBlock s).stack = State.reset.stack := rfl
@[simp] theorem resetBlock_mem (s : State) : (resetBlock s).mem = State.reset.mem := rfl
@[simp] theorem resetBlock_fb (s : State) : (resetBlock s).fb = State.reset.fb := rfl
@[simp] theorem resetBlock_dt (s : State) : (resetBlock s).dt = State.reset.dt := rfl
@[simp] theorem resetBlock_st (s : State) : (resetBlock s).st = State.reset.st := rfl
@[simp] theorem resetBlock_keys (s : State) : (resetBlock s).keys = State.reset.keys := rfl
@[simp] theorem resetBlock_fault (s : State) : (resetBlock s).fault = State.reset.fault := rfl
@[simp] theorem resetBlock_loaded (s : State) : (resetBlock s).loaded = State.reset.loaded := rfl
@[simp] theorem resetBlock_draws (s : State) : (resetBlock s).draws = s.draws := rfl
@[simp] theorem resetBlock_out (s : State) : (resetBlock s).out = State.reset.out := rfl

end Sys2Proof.Machine
end

