-- ==== Sys2Proof/Laws/Memory.lean ====
section
/-! SUPPORT. The laws of memory: read after write, and that every memory operation keeps the canonical form. -/

namespace Sys2Proof.Machine

theorem cons_lookup_same (a : Nat) (b : Byte) (rest : Memory) (h : rest.lookup a = initialByte a) :
    (Memory.cons a b rest).lookup a = b := by
  unfold Memory.cons
  split
  · rw [h]; exact (‹b = initialByte a›).symm
  · simp [Memory.lookup]

theorem cons_lookup_other {a k : Nat} (b : Byte) (rest : Memory) (h : a ≠ k) :
    (Memory.cons a b rest).lookup k = rest.lookup k := by
  unfold Memory.cons
  split
  · rfl
  · simp [Memory.lookup, h]

/-- An address below every listed one reads as after reset. -/
theorem lookup_below {lo a : Nat} {m : Memory} (h : m.wfFrom lo = true) (ha : a < lo) : m.lookup a = initialByte a := by
  induction m generalizing lo with
  | nil => rfl
  | cons e rest ih =>
    obtain ⟨k, b⟩ := e
    simp only [Memory.wfFrom, Bool.and_eq_true, decide_eq_true_eq] at h
    rw [Memory.lookup, if_neg (by omega), ih h.2 (by omega)]

/-- A read after a write to the same address gives the byte written. -/
theorem update_lookup_same {lo : Nat} {m : Memory} (h : m.wfFrom lo = true) (a : Nat) (b : Byte) :
    (m.update a b).lookup a = b := by
  induction m generalizing lo with
  | nil => exact cons_lookup_same a b [] rfl
  | cons e rest ih =>
    obtain ⟨k, c⟩ := e
    have h' := h
    simp only [Memory.wfFrom, Bool.and_eq_true, decide_eq_true_eq] at h'
    rw [Memory.update]
    split
    · refine cons_lookup_same a b _ ?_
      rw [Memory.lookup, if_neg (by omega), lookup_below h'.2 (by omega)]
    · split
      · exact cons_lookup_same a b _ (lookup_below h'.2 (by omega))
      · rw [Memory.lookup, if_neg (by omega), ih h'.2]

/-- A write leaves every other address alone. -/
theorem update_lookup_other (m : Memory) {a k : Nat} (b : Byte) (h : a ≠ k) : (m.update a b).lookup k = m.lookup k := by
  induction m with
  | nil => exact cons_lookup_other b [] h
  | cons e rest ih =>
    obtain ⟨j, c⟩ := e
    rw [Memory.update]
    split
    · exact cons_lookup_other b _ h
    · split
      · rw [cons_lookup_other b _ h, Memory.lookup, if_neg (by omega)]
      · rw [Memory.lookup, Memory.lookup, ih]

theorem wfFrom_mono {lo hi : Nat} {m : Memory} (h : m.wfFrom hi = true) (hle : lo ≤ hi) : m.wfFrom lo = true := by
  cases m with
  | nil => rfl
  | cons e rest =>
    obtain ⟨k, b⟩ := e
    simp only [Memory.wfFrom, Bool.and_eq_true, decide_eq_true_eq] at h ⊢
    exact ⟨⟨by omega, h.1.2⟩, h.2⟩

theorem cons_wfFrom {lo a : Nat} {b : Byte} {rest : Memory} (hlo : lo ≤ a) (ha : a < Config.memSize)
    (h : rest.wfFrom (a + 1) = true) : (Memory.cons a b rest).wfFrom lo = true := by
  unfold Memory.cons
  split
  · exact wfFrom_mono h (by omega)
  · simp only [Memory.wfFrom, Bool.and_eq_true, decide_eq_true_eq]
    exact ⟨⟨hlo, ha, ‹_›⟩, h⟩

theorem update_wfFrom {lo a : Nat} {m : Memory} (b : Byte) (h : m.wfFrom lo = true) (hlo : lo ≤ a)
    (ha : a < Config.memSize) : (m.update a b).wfFrom lo = true := by
  induction m generalizing lo with
  | nil => exact cons_wfFrom hlo ha rfl
  | cons e rest ih =>
    obtain ⟨k, c⟩ := e
    have h' := h
    simp only [Memory.wfFrom, Bool.and_eq_true, decide_eq_true_eq] at h'
    rw [Memory.update]
    split
    · refine cons_wfFrom hlo ha ?_
      simp only [Memory.wfFrom, Bool.and_eq_true, decide_eq_true_eq]
      exact ⟨⟨by omega, h'.1.2⟩, h'.2⟩
    · split
      · exact cons_wfFrom hlo ha (by subst a; exact h'.2)
      · simp only [Memory.wfFrom, Bool.and_eq_true, decide_eq_true_eq]
        exact ⟨h'.1, ih h'.2 (by omega)⟩

/-- Every memory operation keeps the canonical form: a write inside the address space. -/
theorem update_wf {m : Memory} {a : Nat} (b : Byte) (h : m.wf = true) (ha : a < Config.memSize) :
    (m.update a b).wf = true := update_wfFrom b h (Nat.zero_le a) ha

/-- Memory after reset is in canonical form. -/
theorem reset_mem_wf : State.reset.mem.wf = true := rfl

/-! ### MemRead and MemWrite -/

theorem memRead_inside {a : Nat} (s : State) (h : a ≤ 0xFFF) : memRead a s = some (s.mem.lookup a) := if_pos h

theorem memRead_outside {a : Nat} (s : State) (h : 0xFFF < a) : memRead a s = none := if_neg (by omega)

/-- A read sees only memory. -/
theorem memRead_congr (a : Nat) {s t : State} (h : s.mem = t.mem) : memRead a s = memRead a t := by
  unfold memRead; rw [h]

/-- Everything a `MemWrite` can do (R41): it answers the state with one byte written, or nothing above 0xFFF. -/
theorem memWrite_cases (a : Nat) (b : Byte) (s : State) :
    (a ≤ 0xFFF ∧ memWrite a b s = some { s with mem := s.mem.update a b }) ∨ (0xFFF < a ∧ memWrite a b s = none) := by
  unfold memWrite
  by_cases h : a ≤ 0xFFF
  · exact .inl ⟨h, if_pos h⟩
  · exact .inr ⟨by omega, if_neg h⟩

end Sys2Proof.Machine
end

