-- ==== Sys2Proof/Laws/Ops.lean ====
section
/-! SUPPORT. One lemma per shared operation that says everything it can do; proofs cite these instead of unfolding. -/

namespace Sys2Proof.Machine

/-! ### Registers -/

theorem readV_writeV_same (x : RegNum) (b : Byte) (s : State) : readV x (writeV x b s) = b := by
  simp [readV]

theorem readV_writeV_other {x z : RegNum} (b : Byte) (s : State) (h : z ≠ x) : readV z (writeV x b s) = readV z s := by
  have h' : x.toNat ≠ z.toNat := fun e => h (BitVec.eq_of_toNat_eq e.symm)
  simp [readV, h']

theorem readV_writeV (x z : RegNum) (b : Byte) (s : State) :
    readV z (writeV x b s) = if z = x then b else readV z s := by
  split
  · subst z; exact readV_writeV_same x b s
  · exact readV_writeV_other b s ‹_›

/-- A register read sees only the register file. -/
theorem readV_congr (x : RegNum) {s t : State} (h : s.v = t.v) : readV x s = readV x t := by
  unfold readV; simp [h]

/-- Two register files that read alike are equal. -/
theorem v_ext {s t : State} (h : ∀ z, readV z s = readV z t) : s.v = t.v := by
  apply Vector.ext
  intro k hk
  have := h (BitVec.ofNat 4 k)
  simpa [readV, Nat.mod_eq_of_lt hk] using this

/-- A flag-writing instruction leaves its result in Vx, its flag in VF unless VF is the destination, and the rest alone (R90). -/
theorem readV_writeFlagThenResult (flag : Bool) (x z : RegNum) (r : Byte) (s : State) :
    readV z (writeFlagThenResult flag x r s) =
      if z = x then r else if z = regF then flagByte flag else readV z s := by
  unfold writeFlagThenResult
  rw [readV_writeV]
  split
  · rfl
  · rw [readV_writeV]

theorem writeFlagThenResult_eq (flag : Bool) (x : RegNum) (r : Byte) (s : State) :
    writeFlagThenResult flag x r s = { s with v := (writeFlagThenResult flag x r s).v } := rfl

theorem writeVFrom_eq (k : Nat) (bs : List Byte) (s : State) :
    writeVFrom k bs s = { s with v := (writeVFrom k bs s).v } := by
  induction bs generalizing k s with
  | nil => rfl
  | cons b bs ih => rw [writeVFrom, ih]; rfl

/-- What loading bytes into consecutive registers leaves in each register. -/
theorem readV_writeVFrom (k : Nat) (bs : List Byte) (s : State) (h : k + bs.length ≤ 16) (z : RegNum) :
    readV z (writeVFrom k bs s) =
      if k ≤ z.toNat then (bs[z.toNat - k]?).getD (readV z s) else readV z s := by
  induction bs generalizing k s with
  | nil => simp [writeVFrom]
  | cons b bs ih =>
    simp only [List.length_cons] at h
    rw [writeVFrom, ih _ _ (by omega), readV_writeV]
    have hk : (BitVec.ofNat 4 k).toNat = k := by simp; omega
    have hz : z = BitVec.ofNat 4 k ↔ z.toNat = k := by
      constructor
      · intro e; rw [e, hk]
      · intro e; exact BitVec.eq_of_toNat_eq (by rw [hk, e])
    by_cases h1 : z.toNat = k
    · rw [if_neg (by omega), if_pos (hz.2 h1), if_pos (by omega)]; simp [h1]
    · rw [if_neg (fun e => h1 (hz.1 e))]
      by_cases h2 : k ≤ z.toNat
      · rw [if_pos (by omega), if_pos h2]
        obtain ⟨d, hd⟩ : ∃ d, z.toNat - k = d + 1 := ⟨z.toNat - k - 1, by omega⟩
        rw [hd, show z.toNat - (k + 1) = d by omega]; simp
      · rw [if_neg (by omega), if_neg h2]

theorem firstV_length (x : RegNum) (s : State) : (firstV x s).length = x.toNat + 1 := by simp [firstV]

theorem firstV_get (x : RegNum) (s : State) (z : RegNum) (h : z.toNat ≤ x.toNat) :
    (firstV x s)[z.toNat]? = some (readV z s) := by
  simp [firstV, List.getElem?_map, List.getElem?_range (show z.toNat < x.toNat + 1 by omega)]

/-! ### Skips -/

theorem skipIf_eq (c : Bool) (s : State) : skipIf c s = { s with pc := if c then s.pc + 2 else s.pc } := by
  cases c <;> rfl

/-! ### Memory ranges -/

theorem rangeFault_iff (base count : Nat) : rangeFault base count = true ↔ 0 < count ∧ base + count > 0x1000 := by
  unfold rangeFault; rw [decide_eq_true_eq]; omega

/-- Reads inside the address space all succeed, and the k-th is the byte at `base + k`. -/
theorem readBytes_inside (base count : Nat) (s : State) (h : count = 0 ∨ base + count ≤ 0x1000) :
    readBytes base count s = some ((List.range count).map fun k => s.mem.lookup (base + k)) := by
  induction count generalizing base with
  | zero => rfl
  | succ count ih =>
    rw [readBytes, memRead_inside s (by omega), ih (base + 1) (by omega)]
    simp [List.range_succ_eq_map, Nat.add_assoc, Nat.add_comm 1]

/-- Reads see only memory. -/
theorem readBytes_congr (base count : Nat) {s t : State} (h : s.mem = t.mem) :
    readBytes base count s = readBytes base count t := by
  induction count generalizing base with
  | zero => rfl
  | succ count ih => rw [readBytes, readBytes, memRead_congr base h, ih]

/-- A read of two bytes succeeds exactly where both do. -/
theorem readBytes_two (base : Nat) (s : State) :
    readBytes base 2 s = if base ≤ 0xFFE then some [s.mem.lookup base, s.mem.lookup (base + 1)] else none := by
  split
  · rw [readBytes_inside base 2 s (.inr (by omega))]; rfl
  · simp only [readBytes]
    by_cases h : base ≤ 0xFFF
    · rw [memRead_inside s h, memRead_outside s (by omega)]
    · rw [memRead_outside s (by omega)]

/-- A write of bytes changes memory alone, each byte to its address and no other address, and keeps the canonical form. -/
theorem writeBytes_spec (base : Nat) (bs : List Byte) (s t : State) (h : writeBytes base bs s = some t) :
    t = { s with mem := t.mem } ∧ (s.mem.wf = true → t.mem.wf = true) ∧
      (∀ a, a < base ∨ base + bs.length ≤ a → t.mem.lookup a = s.mem.lookup a) ∧
      (s.mem.wf = true → ∀ k (hk : k < bs.length), t.mem.lookup (base + k) = bs[k]) := by
  induction bs generalizing base s with
  | nil =>
    simp only [writeBytes, Option.some.injEq] at h
    subst h
    exact ⟨rfl, id, fun _ _ => rfl, fun _ k hk => absurd hk (by simp)⟩
  | cons b bs ih =>
    rcases memWrite_cases base b s with ⟨hb, e⟩ | ⟨hb, e⟩
    · rw [writeBytes, e] at h
      obtain ⟨h1, h2, h3, h4⟩ := ih (base + 1) _ h
      have hu : s.mem.wf = true → (s.mem.update base b).wf = true :=
        fun w => update_wf b w (by show base < 4096; omega)
      refine ⟨h1, fun w => h2 (hu w), fun a ha => ?_, fun w k hk => ?_⟩
      · simp only [List.length_cons] at ha
        rw [h3 a (by omega)]
        exact update_lookup_other _ b (by omega)
      · cases k with
        | zero => rw [h3 (base + 0) (by omega)]; exact update_lookup_same w base b
        | succ k =>
          have := h4 (hu w) k (by simpa using hk)
          rw [show base + (k + 1) = base + 1 + k by omega]; simpa using this
    · rw [writeBytes, e] at h; cases h

/-- Writes inside the address space all succeed. -/
theorem writeBytes_inside (base : Nat) (bs : List Byte) (s : State) (h : bs.length = 0 ∨ base + bs.length ≤ 0x1000) :
    ∃ t, writeBytes base bs s = some t := by
  induction bs generalizing base s with
  | nil => exact ⟨s, rfl⟩
  | cons b bs ih =>
    simp only [List.length_cons] at h
    rw [writeBytes, (memWrite_cases base b s).resolve_right (by omega) |>.2]
    exact ih (base + 1) _ (by omega)

/-- Everything an instruction that accesses memory from I can do (R42): its accesses answer a state, or it raises
`MemRange(0x1000)`. -/
theorem accessAtIndex_cases (count : Nat) (i : Instr) (access : State → Option State) (s : State) :
    (rangeFault s.index.toNat count = false ∧ ∃ t, access s = some t ∧ accessAtIndex count i access s = .next t) ∨
      accessAtIndex count i access s = .next (raiseAt (s.pc - 2) .memRange (some (encode i)) (some 0x1000#16) s) := by
  unfold accessAtIndex
  cases hr : rangeFault s.index.toNat count with
  | true => exact .inr rfl
  | false =>
    cases ha : access s with
    | none => exact .inr (by simp [raise])
    | some t => exact .inl ⟨rfl, t, rfl, by simp⟩

/-- A range that fits and accesses that succeed: the instruction completes. -/
theorem accessAtIndex_completes {count : Nat} {access : State → Option State} {s t : State} (i : Instr)
    (hr : rangeFault s.index.toNat count = false) (ha : access s = some t) : accessAtIndex count i access s = .next t := by
  simp [accessAtIndex, hr, ha]

/-- A range that does not fit raises `MemRange(0x1000)`. -/
theorem accessAtIndex_traps {count : Nat} {s : State} (i : Instr) (access : State → Option State)
    (hr : rangeFault s.index.toNat count = true) :
    accessAtIndex count i access s = .next (raiseAt (s.pc - 2) .memRange (some (encode i)) (some 0x1000#16) s) := by
  simp [accessAtIndex, hr, raise]

/-- Reading `count` bytes answers a list of that length or nothing. -/
theorem readBytes_length (base count : Nat) (s : State) (bs : List Byte) (h : readBytes base count s = some bs) :
    bs.length = count := by
  induction count generalizing base bs with
  | zero => simp only [readBytes, Option.some.injEq] at h; simp [← h]
  | succ count ih =>
    simp only [readBytes] at h
    split at h
    · cases h
    · split at h
      · cases h
      · rename_i h2; cases h; simp [ih _ _ h2]

/-! ### The four instructions that access memory from I -/

theorem exec_ldB (x : RegNum) (s : State) : exec (.ldB x) s = accessAtIndex 3 (.ldB x) (storeDigits x) s := rfl

theorem exec_storeRegs (x : RegNum) (s : State) :
    exec (.storeRegs x) s = accessAtIndex (x.toNat + 1) (.storeRegs x) (storeFirstV x) s := rfl

theorem exec_loadRegs (x : RegNum) (s : State) :
    exec (.loadRegs x) s = accessAtIndex (x.toNat + 1) (.loadRegs x) (loadFirstV x) s := rfl

theorem exec_drw (x y : RegNum) (n : Nibble) (s : State) :
    exec (.drw x y n) s = accessAtIndex n.toNat (.drw x y n) (readAndDraw x y n) s := rfl

/-- Everything the accesses of `Fx65` can answer: as many bytes as registers, loaded from V0 on. -/
theorem loadFirstV_cases (x : RegNum) (s t : State) (h : loadFirstV x s = some t) :
    ∃ bs, readBytes (indexedAddress 0 s) (x.toNat + 1) s = some bs ∧ bs.length = x.toNat + 1 ∧ t = writeVFrom 0 bs s := by
  unfold loadFirstV at h
  split at h
  · cases h
  · rename_i bs hb; cases h; exact ⟨bs, hb, readBytes_length _ _ _ _ hb, rfl⟩

/-- Everything the accesses of `Dxyn` can answer: n bytes, drawn. -/
theorem readAndDraw_cases (x y : RegNum) (n : Nibble) (s t : State) (h : readAndDraw x y n s = some t) :
    ∃ bs, readBytes (indexedAddress 0 s) n.toNat s = some bs ∧ bs.length = n.toNat ∧ t = drawn x y bs s := by
  unfold readAndDraw at h
  split at h
  · cases h
  · rename_i bs hb; cases h; exact ⟨bs, hb, readBytes_length _ _ _ _ hb, rfl⟩

/-- What a draw leaves but for the pixels and VF. -/
theorem drawn_eq (x y : RegNum) (bs : List Byte) (s : State) :
    drawn x y bs s = { s with v := (drawn x y bs s).v, fb := (drawn x y bs s).fb, out := s.out ++ [.displayDirty] } := rfl

/-! ### Taking a fault -/

/-- The whole effect of `raise` (R152). -/
theorem raiseAt_eq (p : Word) (c : FaultCause) (o d : Option Word) (s : State) :
    raiseAt p c o d s = { s with pc := p, fault := some c, out := s.out ++ [.fault c p o d] } := rfl

/-! ### Call stack -/

/-- Everything a push can do. -/
theorem push_cases (a : Word) (s : State) :
    (∃ h : s.sp.val < 16, push a s =
      some { s with stack := s.stack.set s.sp.val a h, sp := ⟨s.sp.val + 1, by omega⟩ }) ∨
      (s.sp.val = 16 ∧ push a s = none) := by
  unfold push
  by_cases h : s.sp.val < 16
  · exact .inl ⟨h, dif_pos h⟩
  · exact .inr ⟨by omega, dif_neg h⟩

/-- Everything a pop can do. -/
theorem pop_cases (s : State) :
    (∃ _ : 0 < s.sp.val, pop s =
      some (s.stack[s.sp.val - 1]'(by omega), { s with sp := ⟨s.sp.val - 1, by omega⟩ })) ∨
      (s.sp.val = 0 ∧ pop s = none) := by
  unfold pop
  by_cases h : 0 < s.sp.val
  · exact .inl ⟨h, dif_pos h⟩
  · exact .inr ⟨by omega, dif_neg h⟩

/-! ### Display -/

theorem pixel_blank (row col : Nat) : pixel blankDisplay row col = false := by
  simp [pixel, blankDisplay]

/-- Two buffers whose pixels agree are equal. -/
theorem display_ext {d e : Display} (h : ∀ row col, row < 32 → col < 64 → pixel d row col = pixel e row col) : d = e := by
  apply Vector.ext
  intro r hr
  apply Vector.ext
  intro c hc
  have := h r c hr hc
  simpa [pixel, Nat.mod_eq_of_lt hr, Nat.mod_eq_of_lt hc] using this

/-- Pixels are addressed modulo the height and the width. -/
theorem pixel_mod (d : Display) (row col : Nat) : pixel d (row % 32) (col % 64) = pixel d row col := by
  simp [pixel]

/-- A flip inverts its own pixel and leaves every other alone. -/
theorem pixel_flipPixel (d : Display) (row col r c : Nat) :
    pixel (flipPixel d row col) r c =
      if row % 32 = r % 32 ∧ col % 64 = c % 64 then !pixel d r c else pixel d r c := by
  unfold flipPixel
  by_cases hr : row % 32 = r % 32
  · by_cases hc : col % 64 = c % 64
    · simp [pixel, hr, hc]
    · simp [pixel, hr, hc]
  · simp [pixel, hr]

/-! ### Keys -/

theorem mem_keyNumbers (k : Nibble) : k ∈ keyNumbers := by
  revert k; decide

/-- Everything the search for a key can answer: none is pressed, or the least pressed one. -/
theorem lowestKey_cases (s : State) :
    ((∀ k, keyPressed k s = false) ∧ lowestKey s = none) ∨
      (∃ k, keyPressed k s = true ∧ (∀ j : Nibble, j.toNat < k.toNat → keyPressed j s = false) ∧ lowestKey s = some k) := by
  cases h : lowestKey s with
  | none =>
    refine .inl ⟨fun k => ?_, rfl⟩
    have := List.find?_eq_none.1 h k (mem_keyNumbers k)
    simpa using this
  | some k =>
    refine .inr ⟨k, ?_, ?_, rfl⟩
    · exact List.find?_some (p := fun k => keyPressed k s) h
    · intro j hj
      obtain ⟨-, as, bs, hsplit, hbefore⟩ := List.find?_eq_some_iff_append.1 h
      have hmem : j ∈ as := by
        have hs : keyNumbers.Pairwise (fun a b : Nibble => a.toNat < b.toNat) := by decide
        have hj' := mem_keyNumbers j
        rw [hsplit] at hs hj'
        rcases List.mem_append.1 hj' with h1 | h1
        · exact h1
        · exfalso
          rcases List.mem_cons.1 h1 with h2 | h2
          · subst h2; omega
          · have := (List.pairwise_cons.1 (List.pairwise_append.1 hs).2.1).1 j h2
            omega
      simpa using hbefore j hmem

end Sys2Proof.Machine
end

