-- ==== Sys2Proof/Laws/PerInstr.lean ====
section
/-! SUPPORT. The family `EncodedRow`: the word that the encoder gives an instruction lies in that instruction's own row of the
opcode map (spec/30_encoding.md R55), one lemma per constructor. -/

namespace Sys2Proof.Laws.EncodedRow

/-- The encoded word matches the instruction's row: `op & mask = match`. -/
def Statement (i : Instr) : Prop := rowMatches (encode i) (rowOf i) = true

/-- A word of format ADDR matches its family's row. -/
theorem addr_row (f : Nibble) (nnn : Addr) :
    rowMatches (packAddr f nnn) ⟨packNibbles f 0 0 0, packNibbles 0xF 0 0 0⟩ = true := by
  rw [rowMatches_iff, family_packAddr]
  exact ⟨BitVec.and_allOnes (x := f), BitVec.and_zero, BitVec.and_zero, BitVec.and_zero⟩

/-- A word of format REG_BYTE matches its family's row. -/
theorem byte_row (f : Nibble) (x : RegNum) (nn : Byte) :
    rowMatches (packByte f x nn) ⟨packNibbles f 0 0 0, packNibbles 0xF 0 0 0⟩ = true := by
  rw [rowMatches_iff, family_packByte]
  exact ⟨BitVec.and_allOnes (x := f), BitVec.and_zero, BitVec.and_zero, BitVec.and_zero⟩

/-- A word of format REG_SUB matches the row of its family and low byte. -/
theorem sub_row (f : Nibble) (x hi lo : Nibble) :
    rowMatches (packNibbles f x hi lo) ⟨packNibbles f 0 hi lo, packNibbles 0xF 0 0xF 0xF⟩ = true := by
  rw [rowMatches_iff, family_packNibbles, y_packNibbles, n_packNibbles]
  exact ⟨BitVec.and_allOnes (x := f), BitVec.and_zero, BitVec.and_allOnes (x := hi), BitVec.and_allOnes (x := lo)⟩

/-- The same with the low byte in one piece. -/
theorem sub_byte_row (f : Nibble) (x : RegNum) (nn : Byte) (hi lo : Nibble) (h : nn = (hi ++ lo : BitVec 8)) :
    rowMatches (packByte f x nn) ⟨packNibbles f 0 hi lo, packNibbles 0xF 0 0xF 0xF⟩ = true := by
  subst h; exact sub_row f x hi lo

/-- A word of format REG_REG matches the row of its family and low nibble. -/
theorem reg_row (f : Nibble) (x y : RegNum) (n : Nibble) :
    rowMatches (packNibbles f x y n) ⟨packNibbles f 0 0 n, packNibbles 0xF 0 0 0xF⟩ = true := by
  rw [rowMatches_iff, family_packNibbles, n_packNibbles]
  exact ⟨BitVec.and_allOnes (x := f), BitVec.and_zero, BitVec.and_zero, BitVec.and_allOnes (x := n)⟩

/-- A word of format REG_REG_N matches its family's row. -/
theorem draw_row (f : Nibble) (x y : RegNum) (n : Nibble) :
    rowMatches (packNibbles f x y n) ⟨packNibbles f 0 0 0, packNibbles 0xF 0 0 0⟩ = true := by
  rw [rowMatches_iff, family_packNibbles]
  exact ⟨BitVec.and_allOnes (x := f), BitVec.and_zero, BitVec.and_zero, BitVec.and_zero⟩

theorem cls : Statement (.cls) := by unfold Statement; decide
theorem ret : Statement (.ret) := by unfold Statement; decide
theorem jp (nnn : Addr) : Statement (.jp nnn) := addr_row 0x1 nnn
theorem call (nnn : Addr) : Statement (.call nnn) := addr_row 0x2 nnn
theorem seImm (x : RegNum) (nn : Byte) : Statement (.seImm x nn) := byte_row 0x3 x nn
theorem sneImm (x : RegNum) (nn : Byte) : Statement (.sneImm x nn) := byte_row 0x4 x nn
theorem seReg (x : RegNum) (y : RegNum) : Statement (.seReg x y) := reg_row 0x5 x y 0x0
theorem ldImm (x : RegNum) (nn : Byte) : Statement (.ldImm x nn) := byte_row 0x6 x nn
theorem addImm (x : RegNum) (nn : Byte) : Statement (.addImm x nn) := byte_row 0x7 x nn
theorem ldReg (x : RegNum) (y : RegNum) : Statement (.ldReg x y) := reg_row 0x8 x y 0x0
theorem orReg (x : RegNum) (y : RegNum) : Statement (.orReg x y) := reg_row 0x8 x y 0x1
theorem andReg (x : RegNum) (y : RegNum) : Statement (.andReg x y) := reg_row 0x8 x y 0x2
theorem xorReg (x : RegNum) (y : RegNum) : Statement (.xorReg x y) := reg_row 0x8 x y 0x3
theorem addReg (x : RegNum) (y : RegNum) : Statement (.addReg x y) := reg_row 0x8 x y 0x4
theorem subReg (x : RegNum) (y : RegNum) : Statement (.subReg x y) := reg_row 0x8 x y 0x5
theorem shr (x : RegNum) (y : RegNum) : Statement (.shr x y) := reg_row 0x8 x y 0x6
theorem subn (x : RegNum) (y : RegNum) : Statement (.subn x y) := reg_row 0x8 x y 0x7
theorem shl (x : RegNum) (y : RegNum) : Statement (.shl x y) := reg_row 0x8 x y 0xE
theorem sneReg (x : RegNum) (y : RegNum) : Statement (.sneReg x y) := reg_row 0x9 x y 0x0
theorem ldI (nnn : Addr) : Statement (.ldI nnn) := addr_row 0xA nnn
theorem jpV0 (nnn : Addr) : Statement (.jpV0 nnn) := addr_row 0xB nnn
theorem rnd (x : RegNum) (nn : Byte) : Statement (.rnd x nn) := byte_row 0xC x nn
theorem drw (x : RegNum) (y : RegNum) (n : Nibble) : Statement (.drw x y n) := draw_row 0xD x y n
theorem skp (x : RegNum) : Statement (.skp x) :=
  sub_byte_row 0xE x 0x9E 0x9 0xE rfl
theorem sknp (x : RegNum) : Statement (.sknp x) :=
  sub_byte_row 0xE x 0xA1 0xA 0x1 rfl
theorem ldVxDt (x : RegNum) : Statement (.ldVxDt x) :=
  sub_byte_row 0xF x 0x07 0x0 0x7 rfl
theorem ldVxK (x : RegNum) : Statement (.ldVxK x) :=
  sub_byte_row 0xF x 0x0A 0x0 0xA rfl
theorem ldDtVx (x : RegNum) : Statement (.ldDtVx x) :=
  sub_byte_row 0xF x 0x15 0x1 0x5 rfl
theorem ldStVx (x : RegNum) : Statement (.ldStVx x) :=
  sub_byte_row 0xF x 0x18 0x1 0x8 rfl
theorem addI (x : RegNum) : Statement (.addI x) :=
  sub_byte_row 0xF x 0x1E 0x1 0xE rfl
theorem ldF (x : RegNum) : Statement (.ldF x) :=
  sub_byte_row 0xF x 0x29 0x2 0x9 rfl
theorem ldB (x : RegNum) : Statement (.ldB x) :=
  sub_byte_row 0xF x 0x33 0x3 0x3 rfl
theorem storeRegs (x : RegNum) : Statement (.storeRegs x) :=
  sub_byte_row 0xF x 0x55 0x5 0x5 rfl
theorem loadRegs (x : RegNum) : Statement (.loadRegs x) :=
  sub_byte_row 0xF x 0x65 0x6 0x5 rfl

end Sys2Proof.Laws.EncodedRow
end

