-- ==== Sys2Proof/Laws/Step.lean ====
section
/-! SUPPORT. Everything a decode, an execution, a step, a load and a run can do, said once; proofs cite these instead of
unfolding. -/

namespace Sys2Proof

/-- Everything the decoder can answer for a word: an instruction, or a rejection that names the word. -/
theorem decodeWord_cases (op : Word) : (∃ i, decodeWord op = .ok i) ∨ decodeWord op = .error (.unrecognised op) := by
  unfold decodeWord
  split <;> (try exact .inl ⟨_, rfl⟩) <;>
    (simp only [decodeFamily0, decodeFamily8, decodeFamilyE, decodeFamilyF, decodeLowZero]
     repeat (split; exact .inl ⟨_, rfl⟩)
     exact .inr rfl)

end Sys2Proof

namespace Sys2Proof.Machine

/-- An instruction whose next state is given either completes, leaving the fault latch and adding at most a DisplayDirty, or
raises one fault that is no FetchRange and does nothing else (spec/60_exceptions.md R152). -/
theorem exec_kinds (i : Instr) (s t : State) (h : exec i s = .next t) :
    (t.fault = s.fault ∧ (t.out = s.out ∨ t.out = s.out ++ [.displayDirty])) ∨
      ∃ c d, t = raiseAt (s.pc - 2) c (some (encode i)) d s ∧ c ≠ .fetchRange := by
  have acc : ∀ count access, accessAtIndex count i access s = .next t →
      (∀ u, access s = some u → u.fault = s.fault ∧ (u.out = s.out ∨ u.out = s.out ++ [.displayDirty])) →
      (t.fault = s.fault ∧ (t.out = s.out ∨ t.out = s.out ++ [.displayDirty])) ∨
        ∃ c d, t = raiseAt (s.pc - 2) c (some (encode i)) d s ∧ c ≠ .fetchRange := by
    intro count access h ha
    rcases accessAtIndex_cases count i access s with ⟨-, u, hu, e⟩ | e <;> rw [e] at h <;> cases h
    · exact .inl (ha _ hu)
    · exact .inr ⟨_, _, rfl, by simp⟩
  cases i
  case ret =>
    rcases pop_cases s with ⟨_, e⟩ | ⟨_, e⟩ <;> (simp only [exec, execRet, e, raise] at h; cases h)
    · simp
    · exact .inr ⟨_, _, rfl, by simp⟩
  case call =>
    rcases push_cases s.pc s with ⟨_, e⟩ | ⟨_, e⟩ <;> (simp only [exec, execCall, e, raise] at h; cases h)
    · simp
    · exact .inr ⟨_, _, rfl, by simp⟩
  case drw x y n =>
    refine acc _ _ h ?_
    intro u hu
    obtain ⟨bs, hb, hl, rfl⟩ := readAndDraw_cases _ _ _ _ _ hu
    exact ⟨rfl, .inr rfl⟩
  case ldB x =>
    refine acc _ _ h ?_
    intro u hu
    rw [(writeBytes_spec _ _ _ _ hu).1]; simp
  case storeRegs x =>
    refine acc _ _ h ?_
    intro u hu
    rw [(writeBytes_spec _ _ _ _ hu).1]; simp
  case loadRegs x =>
    refine acc _ _ h ?_
    intro u hu
    obtain ⟨bs, hb, hl, rfl⟩ := loadFirstV_cases _ _ _ hu
    rw [writeVFrom_eq]; simp
  case skp x =>
    simp only [exec, execSkp, raiseKeyRange, raise] at h
    split at h <;> cases h
    · exact .inr ⟨_, _, rfl, by simp⟩
    · simp [skipIf_eq]
  case sknp x =>
    simp only [exec, execSknp, raiseKeyRange, raise] at h
    split at h <;> cases h
    · exact .inr ⟨_, _, rfl, by simp⟩
    · simp [skipIf_eq]
  case ldVxK x =>
    simp only [exec, execLdVxK] at h
    split at h <;> cases h <;> simp
  all_goals (cases h; simp [skipIf_eq, writeFlagThenResult, drawRandom])

/-- Everything a step that answers a state can do: the fault of a fetch out of range, the decoded instruction, or the report of
an unrecognised word (spec/40_cycle.md R70 to R76). -/
theorem step_cases (s t : State) (h : step s = .next t) : s.fault = none ∧
    ((0xFFE < s.pc.toNat ∧ t = raiseFetch (clearOut s)) ∨
      ∃ op, s.pc.toNat ≤ 0xFFE ∧ op = wordOfBytes (s.mem.lookup s.pc.toNat) (s.mem.lookup (s.pc.toNat + 1)) ∧
        ((∃ i, decodeWord op = .ok i ∧ exec i (advancePc (clearOut s)) = .next t) ∨
          (decodeWord op = .error (.unrecognised op) ∧
            t = reportUnknown (.unrecognised op) (advancePc (clearOut s))))) := by
  unfold step at h
  split at h
  · cases h
  · rename_i hf
    refine ⟨hf, ?_⟩
    simp only [fetchBytes, readBytes_two] at h
    by_cases hp : s.pc.toNat ≤ 0xFFE
    · right
      simp only [if_pos hp, decode] at h
      refine ⟨_, hp, rfl, ?_⟩
      rcases decodeWord_cases (wordOfBytes (s.mem.lookup s.pc.toNat) (s.mem.lookup (s.pc.toNat + 1))) with ⟨i, hi⟩ | hr
      · simp only [hi] at h
        exact .inl ⟨i, hi, h⟩
      · simp only [hr] at h
        cases h
        exact .inr ⟨hr, rfl⟩
    · simp only [if_neg hp] at h
      cases h
      exact .inl ⟨by omega, rfl⟩

/-- What the state before a load is: the reset state but for the keys, the count of random bytes and the latest events. -/
theorem atBoot_iff (s : State) : atBoot s = true ↔ ∃ k d e, s = { State.reset with keys := k, draws := d, out := e } := by
  unfold atBoot
  rw [decide_eq_true_eq]
  constructor
  · intro h; exact ⟨s.keys, s.draws, s.out, by rw [← h]⟩
  · rintro ⟨k, d, e, rfl⟩; rfl

/-- Everything a load can answer (spec/46_host_operations.md R137). -/
theorem load_cases (image : List Byte) (s : State) :
    (atBoot s = false ∧ load image s = .outsideBoot) ∨
      (atBoot s = true ∧ 3584 < image.length ∧ load image s = .tooLarge) ∨
      (atBoot s = true ∧ image.length ≤ 3584 ∧
        ∃ t, load image s = .ok t ∧ writeBytes Config.progBase image (markLoaded (clearOut s)) = some t) := by
  unfold load
  cases hb : atBoot s with
  | false => exact .inl ⟨rfl, by rfl⟩
  | true =>
    by_cases hl : image.length + Config.progBase > Config.memSize
    · refine .inr (.inl ⟨rfl, by simp only [Config.progBase, Config.memSize] at hl; omega, ?_⟩)
      rw [if_pos hl]; rfl
    · simp only [Config.progBase, Config.memSize] at hl
      obtain ⟨t, ht⟩ := writeBytes_inside Config.progBase image (markLoaded (clearOut s)) (.inr (by simp only [Config.progBase]; omega))
      refine .inr (.inr ⟨rfl, by omega, t, ?_, ht⟩)
      have h1 : ¬(image.length + 512 > 4096) := by omega
      simp only [Bool.not_true, Bool.false_eq_true, if_false, Config.progBase, Config.memSize, if_neg h1]
      simp only [Config.progBase] at ht
      rw [ht]

/-- A run of any machine peels off its first step. -/
theorem coreRun_succ (M : Host.Core) (n : Nat) (s t : M.State) (h : M.step s = .next t) :
    M.run (n + 1) s = M.run n t := by
  simp only [Host.Core.run, h]

/-- A run of this machine peels off its first step. -/
theorem run_succ (n : Nat) (s t : State) (h : step s = .next t) :
    Host.Core.run Sys2Proof.core (n + 1) s = Host.Core.run Sys2Proof.core n t := coreRun_succ Sys2Proof.core n s t h

end Sys2Proof.Machine
end

