-- ==== Sys2Proof/Tests/Slice0.lean ====
section
/-! SUPPORT. Tests of one decode or one step each, and for every obligation with hypotheses a witness that meets them.
Expected results are those of spec/95_test_vectors.md (named by its section) or of the rule named; each starts from the reset state with
the word under test placed at 0x200 unless it says otherwise. -/

namespace Sys2Proof.Tests

open Sys2Proof.Machine

/-- The state after reset. -/
def boot : State := State.reset

/-- Bytes put into memory from `a` on. -/
def poke (a : Nat) (bytes : List Byte) (s : State) : State := (writeBytes a bytes s).getD s

/-- One step with the word `w` where it fetches, seen through `f`; nothing where it answers no state. -/
def after {α : Type} (w : Nat) (s : State) (f : State → α) : Option α :=
  match step (s.withFetchWord 16 w) with
  | .next t => some (f t)
  | _ => none

/-- The stack pointer set. -/
def withSp (n : Fin 17) (s : State) : State := { s with sp := n }

/-- One key latched. -/
def press (k : Nibble) (s : State) : State := { s with keys := s.keys.set k.toNat true }

/-- One pixel lit. -/
def light (row col : Nat) (s : State) : State := { s with fb := flipPixel s.fb row col }

/-! ### Well-formedness and decoding -/

/-- R56, one ill-formed word for each check: family 0 by the whole word, 5 and 9 by n, 8 by n, E and F by nn. -/
theorem test_illFormed_words_refused :
    [0x0000, 0x0123, 0x5AB1, 0x9ABF, 0x8128, 0x812F, 0xE19F, 0xF108].all (fun w =>
      !recognised (BitVec.ofNat 16 w) && decodeTableWord 16 w == none) = true := by decide

/-- R54: a well-formed word of every family passes the same checks. -/
theorem test_wellFormed_words_accepted :
    [0x00E0, 0x5AB0, 0x9AB0, 0x8127, 0x812E, 0xE19E, 0xE1A1, 0xF10A, 0xF165, 0x1000, 0xDFFF].all (fun w =>
      recognised (BitVec.ofNat 16 w) && (decodeTableWord 16 w).any Instr.wellFormed) = true := by decide

/-- Too few bytes are refused by name (R50). -/
theorem test_truncated_refused : decode [] = .error .truncated ∧ decode [0x00] = .error .truncated := by decide

/-- Families 0, 1, 2, A, B of R55, digit by digit. -/
theorem test_decode_addresses :
    decodeWord 0b0000000011100000 = .ok .cls ∧ decodeWord 0b0000000011101110 = .ok .ret ∧
    decodeWord 0b0001001000110100 = .ok (.jp 0x234) ∧ decodeWord 0b0010101010111100 = .ok (.call 0xABC) ∧
    decodeWord 0b1010111111111111 = .ok (.ldI 0xFFF) ∧ decodeWord 0b1011001000000001 = .ok (.jpV0 0x201) := by decide

/-- Families 3, 4, 6, 7, C of R55. -/
theorem test_decode_register_byte :
    decodeWord 0b0011101000000111 = .ok (.seImm 0xA 0x07) ∧ decodeWord 0b0100101011111111 = .ok (.sneImm 0xA 0xFF) ∧
    decodeWord 0b0110110001011010 = .ok (.ldImm 0xC 0x5A) ∧ decodeWord 0b0111001100000111 = .ok (.addImm 3 0x07) ∧
    decodeWord 0b1100000100001111 = .ok (.rnd 1 0x0F) := by decide

/-- Families 5, 9 and D of R55. -/
theorem test_decode_register_register :
    decodeWord 0b0101101010110000 = .ok (.seReg 0xA 0xB) ∧ decodeWord 0b1001101010110000 = .ok (.sneReg 0xA 0xB) ∧
    decodeWord 0b1101000100100101 = .ok (.drw 1 2 5) := by decide

/-- Family 8 of R55. -/
theorem test_decode_family_8 :
    decodeWord 0b1000000100100000 = .ok (.ldReg 1 2) ∧ decodeWord 0b1000000100100001 = .ok (.orReg 1 2) ∧
    decodeWord 0b1000000100100010 = .ok (.andReg 1 2) ∧ decodeWord 0b1000000100100011 = .ok (.xorReg 1 2) ∧
    decodeWord 0b1000000100100100 = .ok (.addReg 1 2) ∧ decodeWord 0b1000000100100101 = .ok (.subReg 1 2) ∧
    decodeWord 0b1000000100100110 = .ok (.shr 1 2) ∧ decodeWord 0b1000000100100111 = .ok (.subn 1 2) ∧
    decodeWord 0b1000000100101110 = .ok (.shl 1 2) := by decide

/-- Families E and F of R55. -/
theorem test_decode_families_E_and_F :
    decodeWord 0b1110000110011110 = .ok (.skp 1) ∧ decodeWord 0b1110000110100001 = .ok (.sknp 1) ∧
    decodeWord 0b1111001100000111 = .ok (.ldVxDt 3) ∧ decodeWord 0b1111001100001010 = .ok (.ldVxK 3) ∧
    decodeWord 0b1111001100010101 = .ok (.ldDtVx 3) ∧ decodeWord 0b1111001100011000 = .ok (.ldStVx 3) ∧
    decodeWord 0b1111001100011110 = .ok (.addI 3) ∧ decodeWord 0b1111001100101001 = .ok (.ldF 3) ∧
    decodeWord 0b1111001100110011 = .ok (.ldB 3) ∧ decodeWord 0b1111001101010101 = .ok (.storeRegs 3) ∧
    decodeWord 0b1111001101100101 = .ok (.loadRegs 3) := by decide

/-- R33: big-endian, the byte at the lower address is the high one. -/
theorem test_decode_big_endian : decode [0x12, 0x34, 0x56] = .ok (.jp 0x234, [0x56]) ∧
    encodeBytes (.jp 0x234) = [0x12, 0x34] := by decide

/-! ### Control transfer and the step (2.1) -/

theorem test_jp_odd : after 0x1201 boot State.pc = some 0x201 := by decide

/-- The word at 0x201 and 0x202: fetched at an odd address. -/
theorem test_jp_from_odd : after 0x1234 (setPc 0x201 boot) State.pc = some 0x234 := by decide

theorem test_call_at_top : after 0x2ABC (setPc 0xFFE boot) (fun t => (t.pc, t.sp, t.stack[0])) =
    some (0xABC, 1, 0x1000) := by decide

theorem test_call_overflow : after 0x2ABC (withSp 16 boot) (fun t => (t.pc, t.sp, t.out)) =
    some (0x200, 16, [.fault .stackOverflow 0x200 (some 0x2ABC) none]) := by decide

theorem test_ret_pops_top : after 0x00EE { boot with sp := 2, stack := (boot.stack.set 0 0xABC).set 1 0x345 }
    (fun t => (t.pc, t.sp)) = some (0x345, 1) := by decide

theorem test_ret_underflow : after 0x00EE boot (fun t => (t.pc, t.sp, t.out)) =
    some (0x200, 0, [.fault .stackUnderflow 0x200 (some 0x00EE) none]) := by decide

theorem test_seImm_at_top : after 0x3A00 (setPc 0xFFE boot) State.pc = some 0x1002 := by decide

theorem test_seImm_differs : after 0x3AFF (writeV 0xA 0xFE boot) State.pc = some 0x202 := by decide

theorem test_sneImm : after 0x4AFF (writeV 0xA 0xFF boot) State.pc = some 0x202 ∧
    after 0x4AFF (writeV 0xA 0xFE boot) State.pc = some 0x204 := by decide

theorem test_seReg : after 0x5AB0 (writeV 0xA 1 (writeV 0xB 1 boot)) State.pc = some 0x204 ∧
    after 0x5AB0 (writeV 0xA 1 (writeV 0xB 2 boot)) State.pc = some 0x202 := by decide

theorem test_sneReg : after 0x9AB0 (writeV 0xA 1 (writeV 0xB 1 boot)) State.pc = some 0x202 ∧
    after 0x9AB0 (writeV 0xA 1 (writeV 0xB 2 boot)) State.pc = some 0x204 := by decide

theorem test_jpV0_not_reduced : after 0xBFFF (writeV 0 0xFF boot) State.pc = some 0x10FE := by decide

/-- What a step answers, seen through `f`, with nothing placed. -/
def stepped {α : Type} (s : State) (f : State → α) : Option α :=
  match step s with
  | .next t => some (f t)
  | _ => none

theorem test_fetch_out_of_range : stepped (setPc 0xFFF boot) (fun t => (t.pc, t.fault, t.out)) =
    some (0xFFF, some .fetchRange, [.fault .fetchRange 0xFFF none (some 0xFFF)]) := by decide

theorem test_unknown_word : after 0x5AB1 boot (fun t => (t.pc, t.fault, t.out)) =
    some (0x202, none, [.unknownOpcode 0x5AB1 0x200]) := by decide

/-- R76: nothing happens while FAULT is set. -/
theorem test_faulted_step_stops : step { boot with fault := some .stackUnderflow } = .fault (.halted .stackUnderflow) := by
  rfl

/-! ### Arithmetic and logic (2.2) -/

theorem test_ldImm : after 0x6C5A boot (fun t => (readV 0xC t, t.pc)) = some (0x5A, 0x202) := by decide

theorem test_addImm_no_flag : after 0x7001 (writeV 0 0xFF boot) (fun t => (readV 0 t, readV 0xF t)) = some (0, 0) := by decide

theorem test_ldReg : after 0x8120 (writeV 1 1 (writeV 2 0xEE boot)) (fun t => (readV 1 t, readV 2 t)) =
    some (0xEE, 0xEE) := by decide

theorem test_orReg_keeps_flag : after 0x8121 (writeV 0xF 1 (writeV 1 0x55 (writeV 2 0xAA boot)))
    (fun t => (readV 1 t, readV 0xF t)) = some (0xFF, 1) := by decide

theorem test_andReg_keeps_flag : after 0x8122 (writeV 0xF 1 (writeV 1 0x55 (writeV 2 0xAA boot)))
    (fun t => (readV 1 t, readV 0xF t)) = some (0x00, 1) := by decide

theorem test_xorReg_keeps_flag : after 0x8123 (writeV 0xF 1 (writeV 1 0xFF (writeV 2 0xAA boot)))
    (fun t => (readV 1 t, readV 0xF t)) = some (0x55, 1) := by decide

theorem test_addReg_wraps : after 0x8124 (writeV 1 0xFF (writeV 2 0x01 boot)) (fun t => (readV 1 t, readV 0xF t)) =
    some (0x00, 1) := by decide

theorem test_addReg_into_flag : after 0x8FF4 (writeV 0xF 0x90 boot) (readV 0xF) = some 0x20 := by decide

theorem test_subReg_borrows : after 0x8125 (writeV 1 0x00 (writeV 2 0x01 boot)) (fun t => (readV 1 t, readV 0xF t)) =
    some (0xFF, 0) := by decide

theorem test_subReg_reads_flag_first : after 0x81F5 (writeV 1 0x05 (writeV 0xF 0x07 boot))
    (fun t => (readV 1 t, readV 0xF t)) = some (0xFE, 0) := by decide

theorem test_shr_ignores_y : after 0x8126 (writeV 1 0x01 (writeV 2 0xFF boot)) (fun t => (readV 1 t, readV 2 t, readV 0xF t)) =
    some (0x00, 0xFF, 1) := by decide

theorem test_shr_fills_zero : after 0x8126 (writeV 1 0x80 (writeV 0xF 1 boot)) (fun t => (readV 1 t, readV 0xF t)) =
    some (0x40, 0) := by decide

theorem test_subn_borrows : after 0x8127 (writeV 1 0x01 boot) (fun t => (readV 1 t, readV 0xF t)) = some (0xFF, 0) := by
  decide

theorem test_subn_into_flag : after 0x8F17 (writeV 0xF 0x05 (writeV 1 0x07 boot)) (readV 0xF) = some 0x02 := by decide

theorem test_shl_ignores_y : after 0x812E (writeV 1 0x80 (writeV 2 0x01 boot)) (fun t => (readV 1 t, readV 2 t, readV 0xF t)) =
    some (0x00, 0x01, 1) := by decide

theorem test_shl_into_flag : after 0x8F0E (writeV 0xF 0xC1 boot) (readV 0xF) = some 0x82 := by decide

/-- R102, for the free byte: it is masked and the next one is another. -/
theorem test_rnd : after 0xC10F boot (fun t => (readV 1 t, t.draws)) = some (Config.randomByte 0 &&& 0x0F, 1) := by rfl

/-! ### Index register and memory (2.3) -/

theorem test_ldI : after 0xAFFF boot State.index = some 0xFFF := by decide

theorem test_addI_wraps_no_flag : after 0xF11E (setIndex 0xFFF (writeV 1 0xFF boot)) (fun t => (t.index, readV 0xF t)) =
    some (0x0FE, 0) := by decide

theorem test_ldF_low_nibble : after 0xF129 (writeV 1 0x1A boot) State.index = some 0x082 := by decide

theorem test_ldB_at_top : after 0xF133 (writeV 1 0xC7 (setIndex 0xFFD boot)) (readBytes 0xFFD 3) =
    some (some [1, 9, 9]) := by decide

theorem test_ldB_range : after 0xF133 (writeV 1 0xC7 (setIndex 0xFFE (poke 0xFFE [0xAA, 0xAA] boot)))
    (fun t => (t.pc, readBytes 0xFFE 2 t, t.out)) =
    some (0x200, some [0xAA, 0xAA], [.fault .memRange 0x200 (some 0xF133) (some 0x1000)]) := by decide

theorem test_storeRegs_at_top : after 0xF255 (writeV 0 0x12 (writeV 1 0x34 (writeV 2 0x56 (setIndex 0xFFD boot))))
    (fun t => (readBytes 0xFFD 3 t, t.index)) = some (some [0x12, 0x34, 0x56], 0xFFD) := by decide

theorem test_storeRegs_range : after 0xFF55 (setIndex 0xFF1 boot) (fun t => (t.pc, t.fault)) =
    some (0x200, some .memRange) := by decide

theorem test_loadRegs_stops_at_x : after 0xF165 (setIndex 0x300 (writeV 2 0x77 (poke 0x300 [0x11, 0x22, 0x33] boot)))
    (fun t => (readV 0 t, readV 1 t, readV 2 t, t.index)) = some (0x11, 0x22, 0x77, 0x300) := by decide

/-- The default font: V0 to V4 are the glyph of 0, VF the first byte of the glyph of 3. -/
theorem test_loadRegs_font : after 0xFF65 (setIndex 0x050 boot) (fun t => (firstV 4 t, readV 0xF t)) =
    some ([0xF0, 0x90, 0x90, 0x90, 0xF0], 0xF0) := by decide

/-! ### Display (2.4) -/

theorem test_cls : after 0x00E0 (writeV 0xF 1 (light 31 63 boot)) (fun t => (pixel t.fb 31 63, readV 0xF t, t.out)) =
    some (false, 1, []) := by decide

theorem test_drw_wraps_columns : after 0xD011 (writeV 0 0x3F (setIndex 0x300 (poke 0x300 [0xC0] boot)))
    (fun t => (pixel t.fb 0 63, pixel t.fb 0 0, pixel t.fb 1 0, readV 0xF t, t.out)) =
    some (true, true, false, 0, [.displayDirty]) := by decide

theorem test_drw_collides : after 0xD011 (light 0 1 (setIndex 0x300 (poke 0x300 [0xC0] boot)))
    (fun t => (pixel t.fb 0 0, pixel t.fb 0 1, readV 0xF t)) = some (true, false, 1) := by decide

/-! ### Keys and timers (2.5) -/

theorem test_skp : after 0xE19E (press 0xF (writeV 1 0x0F boot)) State.pc = some 0x204 ∧
    after 0xE19E (press 0xE (writeV 1 0x0F boot)) State.pc = some 0x202 := by decide

theorem test_skp_range : after 0xE19E (press 0 (writeV 1 0x10 boot)) (fun t => (t.pc, t.out)) =
    some (0x200, [.fault .keyRange 0x200 (some 0xE19E) (some 0x10)]) := by decide

theorem test_sknp : after 0xE1A1 boot State.pc = some 0x204 ∧ after 0xE1A1 (press 0 boot) State.pc = some 0x202 := by decide

theorem test_sknp_range : after 0xE1A1 (writeV 1 0xFF boot) (fun t => (t.pc, t.out)) =
    some (0x200, [.fault .keyRange 0x200 (some 0xE1A1) (some 0xFF)]) := by decide

theorem test_ldVxK_stalls : after 0xF10A (writeV 1 0x55 boot) (fun t => (t.pc, readV 1 t)) = some (0x200, 0x55) := by decide

theorem test_ldVxK_lowest : after 0xF10A (press 0xC (press 5 (press 3 boot))) (fun t => (t.pc, readV 1 t)) =
    some (0x202, 3) := by decide

theorem test_ldVxDt : after 0xF107 { boot with dt := 255 } (fun t => (readV 1 t, t.dt)) = some (255, 255) := by decide

theorem test_ldDtVx : after 0xF115 { writeV 1 0xFF boot with dt := 3 } State.dt = some 255 := by decide

theorem test_ldStVx : after 0xF118 (writeV 1 1 boot) (fun t => (t.st, tone t)) = some (1, true) ∧
    after 0xF118 { boot with st := 9 } (fun t => (t.st, tone t, t.out)) = some (0, false, []) := by decide

/-! ### Host operations (2.6) -/

/-- R140: a reset replays no random byte; the byte after one draw and a reset is the second. -/
theorem test_reset_keeps_draws : (resetBlock { boot with draws := 1, pc := 0x300 }).draws = 1 ∧
    (resetBlock { boot with draws := 1, pc := 0x300 }).pc = 0x200 := by decide

theorem test_tick_stops_tone : (tick { boot with st := 1 }).out = [.toneStop] ∧ (tick { boot with st := 1 }).st = 0 ∧
    (tick { boot with dt := 255 }).dt = 254 ∧ (tick boot).out = [] := by decide

theorem test_tick_ignores_fault : (tick { boot with fault := some .memRange, dt := 5 }).dt = 4 := by decide

theorem test_setKeys_replaces : keyPressed 3 (setKeys (press 5 boot).keys (press 3 boot)) = false ∧
    keyPressed 5 (setKeys (press 5 boot).keys (press 3 boot)) = true := by decide

/-- D19: a second load is refused, after an empty image too, and a load after a tick and set_keys is not. -/
theorem test_second_load_refused : load [0x60] (markLoaded boot) = .outsideBoot ∧
    (match load [0x60] (tick (press 3 boot)) with | .ok _ => true | _ => false) = true := by decide

/-- R77: the document's own example, a load and one step. -/
theorem test_load : (match load [0x60, 0x0A, 0x70, 0x05] boot with
    | .ok t => (readBytes 0x200 5 t, (match step t with | .next u => some (readV 0 u, u.pc) | _ => none))
    | _ => (none, none)) = (some [0x60, 0x0A, 0x70, 0x05, 0x00], some (0x0A, 0x202)) := by decide

/-! ### Witnesses: for every obligation with hypotheses, inputs that meet them; one per clause, at the boundary. -/

theorem witness_ResetEstablishesInv : perform .reset (press 3 boot) = .next (resetBlock (press 3 boot)) := by rfl

theorem boot_inv : Inv boot := ⟨rfl, by decide, by decide, by intro k; simp [boot, State.reset]⟩

theorem witness_StepKeepsInv : Inv boot ∧ (stepped boot State.pc).isSome = true := ⟨boot_inv, by decide⟩

theorem witness_ReachableStatesHaveInv : Reachable (tick State.reset) :=
  .after .tick .atReset rfl

theorem witness_DecodeOfEncodeIsIdentity : Instr.wellFormed (.drw 0xF 0xF 0xF) = true := by decide

theorem witness_EncodeOfDecodeIsIdentity : decode [0x8F, 0xFE, 0x00] = .ok (.shl 0xF 0xF, [0x00]) := by decide

theorem witness_DecoderAcceptsExactlyRecognisedWords : recognised 0x00E0 = true ∧ recognised 0x00E1 = false := by decide

theorem witness_DecoderIsMaskAndCompare : decodeWord 0xF065 = .ok (.loadRegs 0) := by decide

/-- 0x1234 at the last fetchable address. -/
def atTop : State := setPc 0xFFE (poke 0xFFE [0x12, 0x34] boot)

theorem witness_StepRunsDecodedInstruction : atTop.fault = none ∧ memRead atTop.pc.toNat atTop = some 0x12 ∧
    memRead (atTop.pc.toNat + 1) atTop = some 0x34 ∧
    decodeWord (BitVec.ofNat 16 ((0x12#8).toNat * 256 + (0x34#8).toNat)) = .ok (.jp 0x234) := by decide

theorem witness_UnrecognisedWordIsReportedNop : boot.fault = none ∧ NextWord boot 0x0000 ∧ recognised 0x0000 = false :=
  ⟨rfl, ⟨0, 0, by decide, by decide, by decide⟩, by decide⟩

theorem witness_FetchOutOfRangeFaults : (setPc 0xFFF boot).fault = none ∧ 0xFFE < (setPc 0xFFF boot).pc.toNat := by decide

theorem witness_StepStopsExactlyWhenFaulted : boot.fault = none ∧
    { boot with fault := some .keyRange }.fault = some .keyRange := by decide

/-- A fault of the fetch, which has no word, and a fault of an instruction, which has one. -/
theorem witness_FaultsArePrecise : stepped (setPc 0x10FE boot) State.fault = some (some .fetchRange) ∧
    after 0x00EE boot State.fault = some (some .stackUnderflow) := by decide

theorem witness_OnlyResetClearsFault : Operation.tick ≠ .reset ∧
    { boot with fault := some .memRange }.fault = some .memRange ∧
    perform .tick { boot with fault := some .memRange } = .next (tick { boot with fault := some .memRange }) :=
  ⟨by decide, rfl, rfl⟩

/-- Steps with no event and with one. -/
theorem witness_StepEmitsAtMostOneEvent : after 0x1200 boot (fun t => t.out.length) = some 0 ∧
    stepped boot (fun t => t.out.length) = some 1 := by decide

theorem witness_CallPushesAdvancedPc : (withSp 15 boot).sp.val < 16 ∧ boot.sp.val < 16 := by decide

theorem witness_ReturnPopsPc : 0 < (withSp 1 boot).sp.val ∧ 0 < (withSp 16 boot).sp.val := by decide

theorem witness_StackFaultsAtBothEnds : (withSp 16 boot).sp.val = 16 ∧ boot.sp.val = 0 := by decide

theorem witness_ReturnUndoesCall : (withSp 15 boot).sp.val < 16 := by decide

/-- Vx = nn for the skip of 3xnn, Vx /= nn for that of 4xnn. -/
theorem witness_SkipImmediateComparesVx : (readV 0 boot).toNat = (0#8).toNat ∧ (readV 0 boot).toNat ≠ (1#8).toNat := by
  decide

theorem witness_SkipRegisterComparesVxVy : (readV 0 boot).toNat = (readV 0xF boot).toNat ∧
    (readV 0 (writeV 0 1 boot)).toNat ≠ (readV 0xF (writeV 0 1 boot)).toNat ∧ (1 : Nibble) ≠ 0 := by decide

/-- A register that is neither x nor VF, and x other than VF; the sums 255 and 256. -/
theorem witness_AddSetsCarry : (1 : RegNum) ≠ regF ∧ (2 : RegNum) ≠ 1 ∧ (2 : RegNum) ≠ regF ∧
    ¬(readV 1 (writeV 1 0xFF boot)).toNat + (readV 2 (writeV 1 0xFF boot)).toNat > 255 ∧
    (readV 1 (writeV 1 0xFF (writeV 2 1 boot))).toNat + (readV 2 (writeV 1 0xFF (writeV 2 1 boot))).toNat > 255 := by decide

/-- No borrow at equal operands, a borrow one below. -/
theorem witness_SubtractSetsNoBorrow : (1 : RegNum) ≠ regF ∧ (readV 2 boot).toNat ≤ (readV 1 boot).toNat ∧
    ¬(readV 2 (writeV 2 1 boot)).toNat ≤ (readV 1 (writeV 2 1 boot)).toNat := by decide

theorem witness_ShiftsMoveBitToFlag : (1 : RegNum) ≠ regF ∧ (2 : RegNum) ≠ 1 ∧ (2 : RegNum) ≠ regF := by decide

/-- A register other than x, for the clauses `z ≠ x` of LoadImmediateSetsVx, AddImmediateWrapsWithoutFlag, CopyAndXorWriteVxOnly,
OrWritesVxOnly, DelayTimerReadAndSet and WaitForKeyStallsOrTakesLowest. -/
theorem witness_OtherRegisters : (0 : RegNum) ≠ 1 ∧ (0xF : RegNum) ≠ 1 := by decide

theorem witness_RandomIsMasked : (0x00 : Byte) = 0 ∧ (2 : RegNum) ≠ 1 := by decide

theorem witness_DecimalDigitsStored : boot.mem.wf = true ∧ (setIndex 0xFFD boot).index.toNat ≤ 0xFFD ∧
    (0xFFC < indexedAddress 0 (setIndex 0xFFD boot)) ∧ indexedAddress 2 (setIndex 0xFFD boot) = 0xFFF := by decide

theorem witness_RegistersStoredAtI : boot.mem.wf = true ∧ (setIndex 0xFF0 boot).index.toNat + (0xF#4).toNat ≤ 0xFFF ∧
    (0xF#4).toNat ≤ (0xF#4).toNat ∧ 0xFEF < indexedAddress 0 (setIndex 0xFF0 boot) := by decide

theorem witness_RegistersLoadedFromI : (setIndex 0xFFF boot).index.toNat + (0#4).toNat ≤ 0xFFF ∧
    (0#4).toNat ≤ (0#4).toNat ∧ (0#4).toNat < (1#4).toNat := by decide

theorem witness_MemoryRangeFaults : 0xFFD < (setIndex 0xFFE boot).index.toNat ∧
    0xFFF < (setIndex 0xFFF boot).index.toNat + (1#4).toNat ∧
    0 < (2#4).toNat ∧ 0x1000 < (setIndex 0xFFF boot).index.toNat + (2#4).toNat := by decide

/-- A sprite of one row 0x80 at I = 0x300, drawn at (0, 0). -/
def dot : State := setIndex 0x300 (poke 0x300 [0x80] boot)

theorem dot_addresses : SpriteAddresses dot 0 0 1 0 0 :=
  ⟨0, 0, by decide, by decide, ⟨0x80, by decide, by decide⟩, by decide, by decide⟩

/-- n = 0 at I = 0xFFF and a range that ends at 0xFFF; a pixel the sprite addresses, dark and lit; one it does not address. -/
theorem witness_DrawFlipsAddressedPixels :
    (0#4).toNat = 0 ∧ (setIndex 0xFFF boot).index.toNat + (1#4).toNat ≤ 0x1000 ∧
    (SpriteAddresses dot 0 0 1 0 0 ∧ pixel dot.fb 0 0 = false) ∧
    (SpriteAddresses (light 0 0 dot) 0 0 1 0 0 ∧ pixel (light 0 0 dot).fb 0 0 = true) ∧
    ¬SpriteAddresses dot 0 0 1 31 0 := by
  refine ⟨by decide, by decide, ⟨dot_addresses, by decide⟩, ⟨dot_addresses, by decide⟩, ?_⟩
  rintro ⟨r, c, hr, -, -, h, -⟩
  have hr' : r < 1 := hr
  have h0 : (readV 0 dot).toNat = 0 := by decide
  omega

theorem witness_DrawTwiceRestoresDisplay : (0 : RegNum) ≠ regF ∧ dot.index.toNat + (1#4).toNat ≤ 0x1000 ∧
    (∀ row col, pixel dot.fb row col = false) ∧ SpriteSet dot 0 0 :=
  ⟨by decide, by decide, fun _ _ => by simp [dot, poke, boot, State.reset, pixel, writeBytes, memWrite],
    ⟨0x80, by decide, by decide⟩⟩

theorem witness_KeySkipsTestLatch : (readV 1 (writeV 1 0xF (press 0xF boot))).toNat ≤ 0xF ∧
    (writeV 1 0xF (press 0xF boot)).keys[15]? = some true ∧ (writeV 1 0xF boot).keys[15]? = some false := by decide

theorem witness_KeyRangeFaults : 0xF < (readV 1 (writeV 1 0x10 boot)).toNat := by decide

theorem witness_WaitForKeyStallsOrTakesLowest : (∀ k, keyPressed k boot = false) ∧
    keyPressed 5 (press 9 (press 5 boot)) = true ∧
    ∀ j : Nibble, j.toNat < (5#4).toNat → keyPressed j (press 9 (press 5 boot)) = false := by decide

theorem witness_SetKeysReplacesAndSnapshotReads : (∀ k, Operation.tick ≠ .setKeys k) ∧ Operation.tick ≠ .reset ∧
    perform .tick (press 3 boot) = .next (tick (press 3 boot)) := ⟨fun _ => by simp, by decide, rfl⟩

theorem witness_LoadPlacesImage : atBoot boot = true ∧ (List.replicate 3584 0#8).length ≤ 3584 ∧
    3584 < (List.replicate 3585 0#8).length ∧ atBoot (setPc 0x202 boot) = false :=
  ⟨by decide, by rw [List.length_replicate], by rw [List.length_replicate]; decide, by decide⟩

/-- A load of the empty image, which changes no byte; the boot state, and the state after that load, where load is closed. -/
theorem witness_LoadHasOneUse : perform .reset boot = .next (resetBlock boot) ∧
    load [] boot = .ok (markLoaded boot) ∧ atBoot boot = true ∧ (stepped boot State.pc).isSome = true ∧
    Reachable (markLoaded boot) ∧ atBoot (markLoaded boot) = false ∧ Operation.tick ≠ .reset ∧
    perform .tick (markLoaded boot) = .next (tick (markLoaded boot)) :=
  ⟨rfl, rfl, by decide, by decide, .after (.load []) .atReset rfl, by decide, by decide, rfl⟩

theorem witness_RegistersFrame : (∃ t, exec (.addReg 1 2) boot = .next t) ∧ (effects (.addReg 1 2)).regs 3 = false :=
  ⟨⟨_, rfl⟩, by decide⟩

/-- Outside the stored bytes of a storing form, and anywhere for a form that stores nothing. -/
theorem witness_MemoryFrame : (∃ t, exec (.ldB 1) dot = .next t) ∧ ¬StoresTo (.ldB 1) dot 0x303 ∧
    ¬StoresTo (.loadRegs 1) dot 0x300 := by
  refine ⟨⟨_, rfl⟩, ?_, ?_⟩ <;> (unfold StoresTo; decide)

theorem witness_SpecialStateFrame : (∃ t, exec (.ldImm 1 2) boot = .next t) ∧ (effects (.ldImm 1 2)).index = false ∧
    (effects (.ldImm 1 2)).stack = false ∧ (effects (.ldImm 1 2)).display = false ∧ (effects (.ldImm 1 2)).delay = false ∧
    (effects (.ldImm 1 2)).sound = false ∧ (effects (.ldImm 1 2)).random = false := ⟨⟨_, rfl⟩, by decide⟩

theorem witness_FaultEventAndPcFrame : (effects (.ldImm 1 2)).canFault = false ∧
    (effects (.loadRegs 1)).movesPc = false ∧
    (∃ t, exec (.loadRegs 1) (setIndex 0xFFF boot) = .next t ∧ t.fault ≠ none) := ⟨rfl, rfl, ⟨_, rfl, by decide⟩⟩

/-- 0x1200 at 0x200, and 0xF10A at 0x200 with no key latched. -/
theorem witness_ParkedAndStalledStandStill : Parked (poke 0x200 [0x12, 0x00] boot) ∧ Stalled (poke 0x200 [0xF1, 0x0A] boot) :=
  ⟨⟨rfl, 0x200, by decide, ⟨0x12, 0x00, by decide, by decide, by decide⟩⟩,
    ⟨rfl, ⟨1, ⟨0xF1, 0x0A, by decide, by decide, by decide⟩⟩, by decide⟩⟩

/-- V0, V1 = 0x6F, 0x77 stored over the next instruction (program P5 of part 3), at the last fetchable address. -/
def storing : State := writeV 0 0x6F (writeV 1 0x77 (setPc 0xFFE (setIndex 0xFFE boot)))

theorem witness_StoreIsSeenByNextFetch : storing.fault = none ∧ storing.mem.wf = true ∧ storing.index = storing.pc ∧
    1 ≤ (1#4).toNat ∧ storing.index.toNat + (1#4).toNat ≤ 0xFFF ∧
    decodeWord (BitVec.ofNat 16 ((readV 0#4 storing).toNat * 256 + (readV 1#4 storing).toNat)) =
      .ok (.ldImm 0xF 0x77) := by decide

theorem witness_SoundTimerIsNeverRead : (effects (.ldDtVx 1)).sound = false ∧ (effects (.ldStVx 1)).sound = true := by decide

/-- 0x50 and 0x9F are font, 0x4F and 0xA0 are not. -/
theorem witness_ResetGivesChosenValues : (0x04F ≤ 0xFFF ∧ 0x04F < 0x050) ∧ (0x0A0 ≤ 0xFFF ∧ 0x09F < 0x0A0) ∧
    memRead 0x050 boot = some 0xF0 ∧ memRead 0x09F boot = some 0x80 := by decide

end Sys2Proof.Tests
end

namespace Sys2Proof

/-! SUPPORT. The opcode map by what a row fixes: the family alone, the family and the low nibble, the family and the low byte,
or the whole word (spec/30_encoding.md R55); when a word matches such a row, and that it matches at most one. -/

/-! ### Rows by what they fix -/

/-- The row that fixes the family alone. -/
def familyRow (f : Nibble) : OpcodeRow := ⟨packNibbles f 0 0 0, 0xF000⟩

/-- The row that fixes the family and the low nibble. -/
def nibbleRow (f n : Nibble) : OpcodeRow := ⟨packNibbles f 0 0 n, 0xF00F⟩

/-- The row that fixes the family and the low byte. -/
def byteRow (f : Nibble) (nn : Byte) : OpcodeRow := ⟨packByte f 0 nn, 0xF0FF⟩

/-- The row that fixes the whole word. -/
def wordRow (w : Word) : OpcodeRow := ⟨w, 0xFFFF⟩

/-- The families of which every word is an instruction (spec/30_encoding.md R54 (2)). -/
def openFamilies : List Nibble := [0x1, 0x2, 0x3, 0x4, 0x6, 0x7, 0xA, 0xB, 0xC, 0xD]

theorem mem_openFamilies {f : Nibble} : f ∈ openFamilies ↔ f = 0x1 ∨ f = 0x2 ∨ f = 0x3 ∨ f = 0x4 ∨ f = 0x6 ∨ f = 0x7 ∨
    f = 0xA ∨ f = 0xB ∨ f = 0xC ∨ f = 0xD := by
  simp [openFamilies]

/-- Every row of the opcode map is of one of the four kinds, with fixed digits that spec/30_encoding.md R54 lists. -/
theorem opcodeRows_kinds : ∀ row ∈ opcodeRows,
    (∃ f ∈ openFamilies, row = familyRow f) ∨ row = wordRow 0x00E0 ∨ row = wordRow 0x00EE ∨
    row = nibbleRow 0x5 0 ∨ row = nibbleRow 0x9 0 ∨ (∃ n ∈ family8LowNibbles, row = nibbleRow 0x8 (BitVec.ofNat 4 n)) ∨
    row = byteRow 0xE 0x9E ∨ row = byteRow 0xE 0xA1 ∨ ∃ nn ∈ familyFLowBytes, row = byteRow 0xF (BitVec.ofNat 8 nn) := by
  decide

/-- The low nibbles of family 0x8 are four bits wide. -/
theorem family8LowNibbles_fit : ∀ n ∈ family8LowNibbles, (BitVec.ofNat 4 n).toNat ∈ family8LowNibbles := by decide

/-- The low bytes of family 0xF are eight bits wide. -/
theorem familyFLowBytes_fit : ∀ nn ∈ familyFLowBytes, (BitVec.ofNat 8 nn).toNat ∈ familyFLowBytes := by decide

/-! ### When a word matches a row -/

theorem rowMatches_eq_true_iff (op : Word) (row : OpcodeRow) : rowMatches op row = true ↔ op &&& row.mask = row.bits := by
  rw [rowMatches, beq_iff_eq]

theorem nibble_and_F (a : Nibble) : a &&& 0xF#4 = a := BitVec.and_allOnes (x := a)

theorem rowMatches_familyRow {op : Word} {f : Nibble} : rowMatches op (familyRow f) = true ↔ fieldFamily op = f :=
  (rowMatches_iff op f 0 0 0 0xF 0 0 0).trans (by simp [nibble_and_F])

theorem rowMatches_nibbleRow {op : Word} {f n : Nibble} :
    rowMatches op (nibbleRow f n) = true ↔ fieldFamily op = f ∧ fieldN op = n :=
  (rowMatches_iff op f 0 0 n 0xF 0 0 0xF).trans (by simp [nibble_and_F])

/-- A word of format REG_BYTE with the low byte of `op`, in four nibbles. -/
theorem packByte_fieldNn (f : Nibble) (x : RegNum) (op : Word) :
    packByte f x (fieldNn op) = packNibbles f x (fieldY op) (fieldN op) :=
  BitVec.eq_of_toNat_eq (by rw [packByte_toNat, packNibbles_toNat, fieldNn_nibbles]; omega)

/-- The mask of a row of format REG_SUB keeps the family and the low byte. -/
theorem and_byteMask (op : Word) : op &&& 0xF0FF = packByte (fieldFamily op) 0 (fieldNn op) := by
  rw [packByte_fieldNn]
  exact (rowMatches_eq_true_iff _ _).mp ((rowMatches_iff op _ 0 _ _ 0xF 0 0xF 0xF).mpr (by simp [nibble_and_F]))

theorem rowMatches_byteRow {op : Word} {f : Nibble} {nn : Byte} :
    rowMatches op (byteRow f nn) = true ↔ fieldFamily op = f ∧ fieldNn op = nn := by
  rw [rowMatches_eq_true_iff, byteRow, and_byteMask]
  constructor
  · intro h
    exact ⟨by simpa using congrArg fieldFamily h, by simpa using congrArg fieldNn h⟩
  · rintro ⟨rfl, rfl⟩; rfl

theorem rowMatches_wordRow {op w : Word} : rowMatches op (wordRow w) = true ↔ op = w := by
  rw [rowMatches_eq_true_iff, wordRow, show op &&& 0xFFFF = op from BitVec.and_allOnes]

/-- Two rows that one word matches agree in every bit that both fix. -/
theorem bits_agree_of_rowMatches {op : Word} {a b : OpcodeRow} (ha : rowMatches op a = true) (hb : rowMatches op b = true) :
    (a.bits ^^^ b.bits) &&& a.mask &&& b.mask = 0#16 := by
  rw [rowMatches_eq_true_iff] at ha hb
  rw [← ha, ← hb]
  ext k
  simp only [BitVec.getElem_and, BitVec.getElem_xor, BitVec.getElem_zero]
  cases op[k] <;> cases a.mask[k] <;> cases b.mask[k] <;> rfl

/-- A word matches at most one row of the opcode map: any two rows differ in a bit that both fix. -/
theorem rowMatches_unique {op : Word} {a b : OpcodeRow} (ha : a ∈ opcodeRows) (hb : b ∈ opcodeRows)
    (hma : rowMatches op a = true) (hmb : rowMatches op b = true) : a = b := by
  have hsymm : Std.Symm fun a b : OpcodeRow => (a.bits ^^^ b.bits) &&& a.mask &&& b.mask ≠ 0 :=
    ⟨fun a b hab => by rwa [BitVec.xor_comm, BitVec.and_assoc, BitVec.and_comm b.mask, ← BitVec.and_assoc]⟩
  by_contra hne
  exact opcodeRows_disjoint.forall ha hb hne (bits_agree_of_rowMatches hma hmb)

/-! SUPPORT. The decoder, family by family: which words it accepts, and the row of the opcode map of the instruction it answers
(spec/30_encoding.md R54, R55). -/

/-! ### Family 0x0 -/

theorem decodeFamily0_accepts (op : Word) : (∃ i, decodeFamily0 op = .ok i) ↔ op = 0x00E0 ∨ op = 0x00EE := by
  unfold decodeFamily0; split_ifs <;> simp [*]

theorem decodeFamily0_row {op : Word} {i : Instr} (h : decodeFamily0 op = .ok i) : rowOf i = wordRow op := by
  unfold decodeFamily0 at h; split_ifs at h <;> cases h <;> subst op <;> rfl

/-! ### Families 0x5 and 0x9 -/

theorem decodeLowZero_eq_ok {op : Word} {i j : Instr} : decodeLowZero op j = .ok i ↔ fieldN op = 0 ∧ j = i := by
  unfold decodeLowZero; split_ifs <;> simp [*]

/-! ### Family 0x8 -/

theorem decodeFamily8_accepts (op : Word) : (∃ i, decodeFamily8 op = .ok i) ↔ (fieldN op).toNat ∈ family8LowNibbles := by
  unfold decodeFamily8
  split_ifs <;> simp_all [family8LowNibbles, BitVec.toNat_eq]

theorem decodeFamily8_row {op : Word} {i : Instr} (h : decodeFamily8 op = .ok i) : rowOf i = nibbleRow 0x8 (fieldN op) := by
  unfold decodeFamily8 at h; split_ifs at h <;> cases h <;> rw [‹fieldN op = _›] <;> rfl

/-! ### Family 0xE -/

theorem decodeFamilyE_accepts (op : Word) : (∃ i, decodeFamilyE op = .ok i) ↔ fieldNn op = 0x9E ∨ fieldNn op = 0xA1 := by
  unfold decodeFamilyE; split_ifs <;> simp [*]

theorem decodeFamilyE_row {op : Word} {i : Instr} (h : decodeFamilyE op = .ok i) : rowOf i = byteRow 0xE (fieldNn op) := by
  unfold decodeFamilyE at h; split_ifs at h <;> cases h <;> rw [‹fieldNn op = _›] <;> rfl

/-! ### Family 0xF -/

theorem decodeFamilyF_accepts (op : Word) : (∃ i, decodeFamilyF op = .ok i) ↔ (fieldNn op).toNat ∈ familyFLowBytes := by
  unfold decodeFamilyF
  split_ifs <;> simp_all [familyFLowBytes, BitVec.toNat_eq]

theorem decodeFamilyF_row {op : Word} {i : Instr} (h : decodeFamilyF op = .ok i) : rowOf i = byteRow 0xF (fieldNn op) := by
  unfold decodeFamilyF at h; split_ifs at h <;> cases h <;> rw [‹fieldNn op = _›] <;> rfl

/-! ### The whole decoder -/

/-- The split of the sixteen families that the decode procedure makes (spec/30_encoding.md R54 (2) to (7)). -/
theorem family_cases (f : Nibble) : f ∈ openFamilies ∨ f = 0x0 ∨ f = 0x5 ∨ f = 0x8 ∨ f = 0x9 ∨ f = 0xE ∨ f = 0xF := by
  revert f; decide

/-- In an open family every word decodes, to an instruction of the family's row. -/
theorem decodeWord_open {op : Word} (hf : fieldFamily op ∈ openFamilies) :
    ∃ i, decodeWord op = .ok i ∧ rowOf i = familyRow (fieldFamily op) := by
  rw [mem_openFamilies] at hf
  rcases hf with hf | hf | hf | hf | hf | hf | hf | hf | hf | hf <;>
    (rw [decodeWord, hf]; exact ⟨_, rfl, rfl⟩)

theorem decodeWord_family0 {op : Word} (hf : fieldFamily op = 0x0) : decodeWord op = decodeFamily0 op := by
  rw [decodeWord, hf]; rfl

theorem decodeWord_family5 {op : Word} (hf : fieldFamily op = 0x5) :
    decodeWord op = decodeLowZero op (.seReg (fieldX op) (fieldY op)) := by
  rw [decodeWord, hf]; rfl

theorem decodeWord_family8 {op : Word} (hf : fieldFamily op = 0x8) : decodeWord op = decodeFamily8 op := by
  rw [decodeWord, hf]; rfl

theorem decodeWord_family9 {op : Word} (hf : fieldFamily op = 0x9) :
    decodeWord op = decodeLowZero op (.sneReg (fieldX op) (fieldY op)) := by
  rw [decodeWord, hf]; rfl

theorem decodeWord_familyE {op : Word} (hf : fieldFamily op = 0xE) : decodeWord op = decodeFamilyE op := by
  rw [decodeWord, hf]; rfl

theorem decodeWord_familyF {op : Word} (hf : fieldFamily op = 0xF) : decodeWord op = decodeFamilyF op := by
  rw [decodeWord, hf]; rfl

/-- A word that decodes matches the row of what it decodes to. -/
theorem rowMatches_of_decodeWord {op : Word} {i : Instr} (h : decodeWord op = .ok i) : rowMatches op (rowOf i) = true := by
  rcases family_cases (fieldFamily op) with hf | hf | hf | hf | hf | hf | hf
  · obtain ⟨j, hj, hrow⟩ := decodeWord_open hf
    obtain rfl : j = i := by simpa [hj] using h
    rw [hrow, rowMatches_familyRow]
  · rw [decodeFamily0_row (decodeWord_family0 hf ▸ h), rowMatches_wordRow]
  · obtain ⟨hn, rfl⟩ := decodeLowZero_eq_ok.mp (decodeWord_family5 hf ▸ h)
    exact rowMatches_nibbleRow.mpr ⟨hf, hn⟩
  · rw [decodeFamily8_row (decodeWord_family8 hf ▸ h)]
    exact rowMatches_nibbleRow.mpr ⟨hf, rfl⟩
  · obtain ⟨hn, rfl⟩ := decodeLowZero_eq_ok.mp (decodeWord_family9 hf ▸ h)
    exact rowMatches_nibbleRow.mpr ⟨hf, hn⟩
  · rw [decodeFamilyE_row (decodeWord_familyE hf ▸ h)]
    exact rowMatches_byteRow.mpr ⟨hf, rfl⟩
  · rw [decodeFamilyF_row (decodeWord_familyF hf ▸ h)]
    exact rowMatches_byteRow.mpr ⟨hf, rfl⟩

/-- A word that matches a row of the opcode map decodes. -/
theorem decodeWord_of_rowMatches {op : Word} {row : OpcodeRow} (hmem : row ∈ opcodeRows) (hm : rowMatches op row = true) :
    ∃ i, decodeWord op = .ok i := by
  rcases opcodeRows_kinds row hmem with
    ⟨f, hf, rfl⟩ | rfl | rfl | rfl | rfl | ⟨n, hn, rfl⟩ | rfl | rfl | ⟨nn, hnn, rfl⟩
  · rw [← rowMatches_familyRow.mp hm] at hf
    obtain ⟨i, hi, -⟩ := decodeWord_open hf
    exact ⟨i, hi⟩
  · obtain rfl := rowMatches_wordRow.mp hm
    exact ⟨.cls, rfl⟩
  · obtain rfl := rowMatches_wordRow.mp hm
    exact ⟨.ret, rfl⟩
  · obtain ⟨hf, hn⟩ := rowMatches_nibbleRow.mp hm
    exact ⟨_, decodeWord_family5 hf ▸ decodeLowZero_eq_ok.mpr ⟨hn, rfl⟩⟩
  · obtain ⟨hf, hn⟩ := rowMatches_nibbleRow.mp hm
    exact ⟨_, decodeWord_family9 hf ▸ decodeLowZero_eq_ok.mpr ⟨hn, rfl⟩⟩
  · obtain ⟨hf, hfn⟩ := rowMatches_nibbleRow.mp hm
    rw [decodeWord_family8 hf, decodeFamily8_accepts, hfn]
    exact family8LowNibbles_fit n hn
  · obtain ⟨hf, hnn⟩ := rowMatches_byteRow.mp hm
    rw [decodeWord_familyE hf, decodeFamilyE_accepts]
    exact .inl hnn
  · obtain ⟨hf, hnn⟩ := rowMatches_byteRow.mp hm
    rw [decodeWord_familyE hf, decodeFamilyE_accepts]
    exact .inr hnn
  · obtain ⟨hf, hfnn⟩ := rowMatches_byteRow.mp hm
    rw [decodeWord_familyF hf, decodeFamilyF_accepts, hfnn]
    exact familyFLowBytes_fit nn hnn

/-- The words that `recognised` lists are those that the decoder accepts, family by family. -/
theorem recognised_iff_decodes (op : Word) : recognised op = true ↔ ∃ i, decodeWord op = .ok i := by
  simp only [recognised, ← fieldFamily_toNat, ← fieldN_toNat, ← fieldNn_toNat]
  rcases family_cases (fieldFamily op) with hf | hf | hf | hf | hf | hf | hf
  · obtain ⟨i, hi, -⟩ := decodeWord_open hf
    rw [mem_openFamilies] at hf
    rcases hf with hf | hf | hf | hf | hf | hf | hf | hf | hf | hf <;> simp [hf, hi]
  · rw [decodeWord_family0 hf, decodeFamily0_accepts]; simp [hf, BitVec.toNat_eq]
  · rw [decodeWord_family5 hf]; simp [hf, BitVec.toNat_eq, decodeLowZero_eq_ok]
  · rw [decodeWord_family8 hf, decodeFamily8_accepts]; simp [hf]
  · rw [decodeWord_family9 hf]; simp [hf, BitVec.toNat_eq, decodeLowZero_eq_ok]
  · rw [decodeWord_familyE hf, decodeFamilyE_accepts]; simp [hf, BitVec.toNat_eq]
  · rw [decodeWord_familyF hf, decodeFamilyF_accepts]; simp [hf]

/-! The statements about the decoder and the opcode map. -/

/-- Settles O8: the accepted words are the recognised ones, and what is not accepted is rejected by name. -/
theorem decoderAcceptsExactlyRecognisedWords : Obligations.DecoderAcceptsExactlyRecognisedWords := by
  intro op
  refine ⟨(recognised_iff_decodes op).mp, fun hr => ?_⟩
  rcases decodeWord_cases op with hok | herr
  · rw [(recognised_iff_decodes op).mpr hok] at hr
    cases hr
  · exact herr

/-- Settles O9: the row of the decoded instruction matches, every matching row decodes, and no two rows share a word. -/
theorem decoderIsMaskAndCompare : Obligations.DecoderIsMaskAndCompare := by
  intro op
  simp only [← rowMatches_eq_true_iff]
  refine ⟨⟨?_, ?_⟩, fun i hi row => ⟨?_, ?_⟩⟩
  · rintro ⟨i, hi⟩
    exact ⟨rowOf i, rowOf_mem i, rowMatches_of_decodeWord hi⟩
  · rintro ⟨row, hmem, hm⟩
    exact decodeWord_of_rowMatches hmem hm
  · rintro ⟨hmem, hm⟩
    exact rowMatches_unique hmem (rowOf_mem i) hm (rowMatches_of_decodeWord hi)
  · rintro rfl
    exact ⟨rowOf_mem i, rowMatches_of_decodeWord hi⟩

end Sys2Proof

namespace Sys2Proof

open Machine

/-! SUPPORT. The decoder undoes the encoder, and what a number given for a word decodes to; the target of a jump, and when an
equality or inequality skip is taken. -/

/-! ### Decoding an encoded instruction -/

/-- The word of an instruction decodes to that instruction, every operand field kept (spec/30_encoding.md R54, R55). -/
theorem decodeWord_encode (i : Instr) : decodeWord (encode i) = .ok i := by
  cases i with
  | cls | ret => rfl
  | jp | call | ldI | jpV0 => simp [encode, decodeWord]
  | seImm | sneImm | ldImm | addImm | rnd => simp [encode, decodeWord]
  | drw => simp [encode, decodeWord]
  | seReg => simp [encode, decodeWord_family5, decodeLowZero]
  | sneReg => simp [encode, decodeWord_family9, decodeLowZero]
  | ldReg | orReg | andReg | xorReg | addReg | subReg | shr | subn | shl =>
    simp [encode, decodeWord_family8, decodeFamily8]
  | skp | sknp => simp [encode, decodeWord_familyE, decodeFamilyE]
  | ldVxDt | ldVxK | ldDtVx | ldStVx | addI | ldF | ldB | storeRegs | loadRegs =>
    simp [encode, decodeWord_familyF, decodeFamilyF]

/-- A number that is the value of an instruction's word decodes to that instruction. -/
theorem decodeWord_ofNat_of_encode {i : Instr} {k : Nat} (h : (encode i).toNat = k) :
    decodeWord (BitVec.ofNat 16 k) = .ok i := by
  rw [← h, BitVec.ofNat_toNat, BitVec.setWidth_eq, decodeWord_encode]

/-! ### Jump targets and skip conditions -/

/-- An address immediate is zero-extended (spec/30_encoding.md R52). -/
@[simp] theorem addressOperand_toNat (nnn : Addr) : (addressOperand nnn).toNat = nnn.toNat :=
  BitVec.toNat_setWidth_of_le (by decide)

/-- A skip on equality moves PC alone, by 2 where the two bytes have the same value (spec/41_flow.md R80). -/
theorem skipIf_beq (a b : Byte) (s : State) :
    skipIf (a == b) s = { s with pc := if a.toNat = b.toNat then s.pc + 2 else s.pc } := by
  simp only [skipIf_eq, beq_iff_eq, BitVec.toNat_eq]

/-- A skip on difference moves PC alone, by 2 where the two bytes have different values (spec/41_flow.md R80). -/
theorem skipIf_bne (a b : Byte) (s : State) :
    skipIf (a != b) s = { s with pc := if a.toNat = b.toNat then s.pc else s.pc + 2 } := by
  simp only [skipIf_eq, bne_iff_ne, ne_eq, BitVec.toNat_eq, ite_not]

/-! The statements about jumps and skips on an immediate. -/

/-- Settles O18: the word is the encoded jump, and the target is the zero-extended address. -/
theorem jumpSetsPc : Obligations.JumpSetsPc := by
  intro nnn s
  have hword : (encode (.jp nnn)).toNat = 0x1000 + nnn.toNat := packAddr_toNat 0x1 nnn
  exact ⟨decodeWord_ofNat_of_encode hword, setPc (addressOperand nnn) s, rfl, addressOperand_toNat nnn, rfl⟩

/-- Settles O20: both words are the encoded skips, and each skip compares Vx with the byte by value. -/
theorem skipImmediateComparesVx : Obligations.SkipImmediateComparesVx := by
  intro x nn s
  have hse : (encode (.seImm x nn)).toNat = 0x3000 + x.toNat * 256 + nn.toNat := packByte_toNat 0x3 x nn
  have hsne : (encode (.sneImm x nn)).toNat = 0x4000 + x.toNat * 256 + nn.toNat := packByte_toNat 0x4 x nn
  exact ⟨decodeWord_ofNat_of_encode hse, decodeWord_ofNat_of_encode hsne, skipIf (readV x s == nn) s,
    skipIf (readV x s != nn) s, rfl, rfl, skipIf_beq _ nn s, skipIf_bne _ nn s⟩

end Sys2Proof

namespace Sys2Proof

open Machine

/-! SUPPORT. The value of a register-register word with its fixed digits in front; how writes of one register combine; and what
repeating one instruction does, for 7xnn in closed form. -/

/-! ### The value of a register-register word -/

/-- The two fixed digits, the family and the low nibble, come before the register fields, as in "0x8002 | x << 8 | y << 4"
(spec/42_alu.md R95). -/
theorem packNibbles_toNat_fixedFirst (f : Nibble) (x y : RegNum) (n : Nibble) :
    (packNibbles f x y n).toNat = f.toNat * 4096 + n.toNat + x.toNat * 256 + y.toNat * 16 := by
  rw [packNibbles_toNat]; omega

/-! ### Writes of one register -/

/-- Everything a register write does (spec/10_state.md R10). -/
theorem writeV_spec (x : RegNum) (b : Byte) (s : State) :
    readV x (writeV x b s) = b ∧ (∀ z, z ≠ x → readV z (writeV x b s) = readV z s) ∧
      writeV x b s = { s with v := (writeV x b s).v } :=
  ⟨readV_writeV_same x b s, fun _ hz => readV_writeV_other b s hz, rfl⟩

/-- Of two writes of one register the second stands. -/
@[simp] theorem writeV_writeV_same (x : RegNum) (a b : Byte) (s : State) : writeV x b (writeV x a s) = writeV x b s := by
  simp [writeV]

/-- Writing back what a register holds changes nothing. -/
@[simp] theorem writeV_readV_self (x : RegNum) (s : State) : writeV x (readV x s) s = s := by
  simp [writeV, readV]

/-! ### Repeating one instruction -/

theorem execTimes_succ_of_next {i : Instr} {s t : State} (h : exec i s = .next t) (k : Nat) :
    execTimes i (k + 1) s = execTimes i k t := by
  simp only [execTimes, h]

/-- 7xnn writes the sum to Vx alone (spec/42_alu.md R92). -/
theorem exec_addImm (x : RegNum) (nn : Byte) (s : State) :
    exec (.addImm x nn) s = .next (writeV x (readV x s + nn) s) := rfl

/-- `k` additions of `nn` add `k * nn`, modulo 256, in one write. -/
theorem execTimes_addImm (x : RegNum) (nn : Byte) (k : Nat) (s : State) :
    execTimes (.addImm x nn) k s = .next (writeV x (readV x s + BitVec.ofNat 8 k * nn) s) := by
  induction k generalizing s with
  | zero => simp [execTimes]
  | succ k ih =>
    have hsum : readV x s + nn + BitVec.ofNat 8 k * nn = readV x s + BitVec.ofNat 8 (k + 1) * nn := by
      rw [BitVec.ofNat_add, add_mul, BitVec.one_mul, add_assoc, add_comm nn]
    rw [execTimes_succ_of_next (exec_addImm x nn s), ih, readV_writeV_same, writeV_writeV_same, hsum]

/-! The statements about the loads, the addition of an immediate, AND and XOR. -/

/-- Settles O26: the word is the encoded load, which is one register write. -/
theorem loadImmediateSetsVx : Obligations.LoadImmediateSetsVx := by
  intro x nn s
  have hword : (encode (.ldImm x nn)).toNat = 0x6000 + x.toNat * 256 + nn.toNat := packByte_toNat 0x6 x nn
  exact ⟨decodeWord_ofNat_of_encode hword, writeV x nn s, rfl, writeV_spec x nn s⟩

/-- Settles O27: one addition is one register write, and 256 of them add 256 times the byte, which is 0 modulo 256. -/
theorem addImmediateWrapsWithoutFlag : Obligations.AddImmediateWrapsWithoutFlag := by
  intro x nn s
  have hword : (encode (.addImm x nn)).toNat = 0x7000 + x.toNat * 256 + nn.toNat := packByte_toNat 0x7 x nn
  obtain ⟨hx, hothers, hrest⟩ := writeV_spec x (readV x s + nn) s
  refine ⟨decodeWord_ofNat_of_encode hword, ⟨_, exec_addImm x nn s, ?_, hothers, hrest⟩, ?_⟩
  · rw [hx, BitVec.toNat_add]
  · have hperiod : BitVec.ofNat 8 256 = 0#8 := by decide
    rw [execTimes_addImm, hperiod, BitVec.zero_mul, BitVec.add_zero, writeV_readV_self]

/-- Settles O28: the three words are the encoded instructions, and each is one write of Vx. -/
theorem copyAndXorWriteVxOnly : Obligations.CopyAndXorWriteVxOnly := by
  intro x y s
  have hld : (encode (.ldReg x y)).toNat = 0x8000 + x.toNat * 256 + y.toNat * 16 := packNibbles_toNat_fixedFirst 0x8 x y 0
  have hand : (encode (.andReg x y)).toNat = 0x8002 + x.toNat * 256 + y.toNat * 16 := packNibbles_toNat_fixedFirst 0x8 x y 2
  have hxor : (encode (.xorReg x y)).toNat = 0x8003 + x.toNat * 256 + y.toNat * 16 := packNibbles_toNat_fixedFirst 0x8 x y 3
  obtain ⟨hldX, hldOthers, hldRest⟩ := writeV_spec x (readV y s) s
  obtain ⟨handX, handOthers, handRest⟩ := writeV_spec x (readV x s &&& readV y s) s
  obtain ⟨hxorX, hxorOthers, hxorRest⟩ := writeV_spec x (readV x s ^^^ readV y s) s
  refine ⟨decodeWord_ofNat_of_encode hld, decodeWord_ofNat_of_encode hand, decodeWord_ofNat_of_encode hxor, _, _, _, rfl, rfl,
    rfl, hldX, fun k => ?_, fun k => ?_, fun z hz => ⟨hldOthers z hz, handOthers z hz, hxorOthers z hz⟩, hldRest, handRest,
    hxorRest⟩
  · rw [handX, BitVec.getLsbD_and]
  · rw [hxorX, BitVec.getLsbD_xor]

end Sys2Proof

namespace Sys2Proof

open Machine

/-! SUPPORT. The value of an immediate word with its fixed digits in front; what a write of I does; and the value of a glyph's
address. -/

/-- The family and the low byte come before the register field, as in "0xF029 | x << 8" (spec/43_index_memory.md R107). -/
theorem packByte_toNat_fixedFirst (f : Nibble) (x : RegNum) (nn : Byte) :
    (packByte f x nn).toNat = f.toNat * 4096 + nn.toNat + x.toNat * 256 := by
  rw [packByte_toNat]; omega

/-- Everything a write of I does (spec/10_state.md R12). -/
theorem setIndex_spec (a : Word) (s : State) :
    (setIndex a s).index = a ∧ setIndex a s = { s with index := (setIndex a s).index } :=
  ⟨setIndex_index a s, rfl⟩

/-- The mask 0xF keeps the low nibble of a byte. -/
theorem toNat_and_lowNibble (b : Byte) : (b &&& 0xF#8).toNat = b.toNat % 16 := by
  rw [BitVec.toNat_and]
  exact Nat.and_two_pow_sub_one_eq_mod b.toNat 4

/-- A glyph's address is at most 0x09B, so 16 bits hold it unreduced (spec/43_index_memory.md R107). -/
@[simp] theorem glyphAddress_toNat (b : Byte) : (glyphAddress b).toNat = 0x050 + 5 * (b.toNat % 16) := by
  have hfits : 0x050 + 5 * (b.toNat % 16) < 2 ^ 16 := by omega
  rw [glyphAddress, toNat_and_lowNibble, BitVec.toNat_ofNat, Nat.mod_eq_of_lt hfits]

/-! The statements about the loads of I. -/

/-- Settles O34: the word is the encoded load, which writes the zero-extended address to I alone. -/
theorem loadIndexSetsI : Obligations.LoadIndexSetsI := by
  intro nnn s
  have hword : (encode (.ldI nnn)).toNat = 0xA000 + nnn.toNat := packAddr_toNat 0xA nnn
  obtain ⟨hindex, hrest⟩ := setIndex_spec (addressOperand nnn) s
  exact ⟨decodeWord_ofNat_of_encode hword, _, rfl, by rw [hindex, addressOperand_toNat], hrest⟩

/-- Settles O36: the word is the encoded load, which writes the glyph's address to I alone. -/
theorem glyphAddressFromLowNibble : Obligations.GlyphAddressFromLowNibble := by
  intro x s
  have hword : (encode (.ldF x)).toNat = 0xF029 + x.toNat * 256 := packByte_toNat_fixedFirst 0xF x 0x29
  obtain ⟨hindex, hrest⟩ := setIndex_spec (glyphAddress (readV x s)) s
  exact ⟨decodeWord_ofNat_of_encode hword, _, rfl, by rw [hindex, glyphAddress_toNat], hrest⟩

end Sys2Proof

namespace Sys2Proof

open Machine

/-! SUPPORT. Which key the search answers, from the keys that are latched; what the wait for a key does in either case; and that
a key's number fits a register. -/

/-! ### The least latched key -/

/-- With no key latched the search answers no key. -/
theorem lowestKey_eq_none {s : State} (hnone : ∀ k, keyPressed k s = false) : lowestKey s = none := by
  rcases lowestKey_cases s with ⟨-, h⟩ | ⟨k, hk, -, -⟩
  · exact h
  · rw [hnone k] at hk
    cases hk

/-- A latched key below which none is latched is the one that the search answers. -/
theorem lowestKey_eq_some {s : State} {k : Nibble} (hk : keyPressed k s = true)
    (hleast : ∀ j : Nibble, j.toNat < k.toNat → keyPressed j s = false) : lowestKey s = some k := by
  rcases lowestKey_cases s with ⟨hnone, -⟩ | ⟨m, hm, hmleast, h⟩
  · rw [hnone k] at hk
    cases hk
  · have hkm : ¬k.toNat < m.toNat := fun hlt => by simp [hmleast k hlt] at hk
    have hmk : ¬m.toNat < k.toNat := fun hlt => by simp [hleast m hlt] at hm
    have heq : m = k := BitVec.eq_of_toNat_eq (by omega)
    rw [h, heq]

/-! ### The wait for a key -/

/-- Without a key the wait goes back to its own word (spec/45_keys_timers.md R127). -/
theorem exec_ldVxK_of_none (x : RegNum) {s : State} (h : lowestKey s = none) :
    exec (.ldVxK x) s = .next (rewindPc s) := by
  change execLdVxK x s = _
  rw [execLdVxK, h]

/-- With a key the wait is one register write (spec/45_keys_timers.md R127). -/
theorem exec_ldVxK_of_some (x : RegNum) {s : State} {k : Nibble} (h : lowestKey s = some k) :
    exec (.ldVxK x) s = .next (writeV x (k.setWidth 8) s) := by
  change execLdVxK x s = _
  rw [execLdVxK, h]

/-- A key's number is zero-extended (spec/30_encoding.md R52). -/
theorem keyByte_toNat (k : Nibble) : (k.setWidth 8).toNat = k.toNat :=
  BitVec.toNat_setWidth_of_le (by decide)

/-! The statements about the wait for a key and the delay timer. -/

/-- Settles O46: the word is the encoded wait, which rewinds PC when the search finds no key and else writes the key it finds. -/
theorem waitForKeyStallsOrTakesLowest : Obligations.WaitForKeyStallsOrTakesLowest := by
  intro x s
  have hword : (encode (.ldVxK x)).toNat = 0xF00A + x.toNat * 256 := packByte_toNat_fixedFirst 0xF x 0x0A
  refine ⟨decodeWord_ofNat_of_encode hword, fun hnone => ?_, fun k hk hleast => ?_⟩
  · exact exec_ldVxK_of_none x (lowestKey_eq_none hnone)
  · obtain ⟨hx, hothers, hrest⟩ := writeV_spec x (k.setWidth 8) s
    exact ⟨_, exec_ldVxK_of_some x (lowestKey_eq_some hk hleast), by rw [hx, keyByte_toNat], hothers, hrest⟩

/-- Settles O47: the words are the encoded instructions; Fx07 is one register write, and Fx15 replaces DT alone. -/
theorem delayTimerReadAndSet : Obligations.DelayTimerReadAndSet := by
  intro x s
  have hread : (encode (.ldVxDt x)).toNat = 0xF007 + x.toNat * 256 := packByte_toNat_fixedFirst 0xF x 0x07
  have hset : (encode (.ldDtVx x)).toNat = 0xF015 + x.toNat * 256 := packByte_toNat_fixedFirst 0xF x 0x15
  obtain ⟨hx, hothers, hrest⟩ := writeV_spec x s.dt s
  exact ⟨decodeWord_ofNat_of_encode hread, decodeWord_ofNat_of_encode hset, writeV x s.dt s, setDt (readV x s) s, rfl, rfl,
    hx, hothers, hrest, rfl⟩

end Sys2Proof

namespace Sys2Proof

open Machine

/-! SUPPORT. That no operation of the block changes the input latch but reset and set_keys, from the shared operations up through
an instruction, a step, a load and a tick; and what set_keys and a snapshot do. -/

/-! ### The input latch under the shared operations -/

@[simp] theorem skipIf_keys (c : Bool) (s : State) : (skipIf c s).keys = s.keys := by
  rw [skipIf_eq]

@[simp] theorem writeFlagThenResult_keys (flag : Bool) (x : RegNum) (r : Byte) (s : State) :
    (writeFlagThenResult flag x r s).keys = s.keys := rfl

@[simp] theorem writeVFrom_keys (k : Nat) (bs : List Byte) (s : State) : (writeVFrom k bs s).keys = s.keys := by
  rw [writeVFrom_eq]

@[simp] theorem drawn_keys (x y : RegNum) (bs : List Byte) (s : State) : (drawn x y bs s).keys = s.keys := rfl

@[simp] theorem drawRandom_keys (s : State) : (drawRandom s).2.keys = s.keys := rfl

theorem writeBytes_keys {base : Nat} {bs : List Byte} {s t : State} (h : writeBytes base bs s = some t) :
    t.keys = s.keys := by
  rw [(writeBytes_spec base bs s t h).1]

theorem push_keys {a : Word} {s t : State} (h : push a s = some t) : t.keys = s.keys := by
  rcases push_cases a s with ⟨_, e⟩ | ⟨_, e⟩ <;> rw [e] at h <;> cases h
  rfl

theorem pop_keys {a : Word} {s t : State} (h : pop s = some (a, t)) : t.keys = s.keys := by
  rcases pop_cases s with ⟨_, e⟩ | ⟨_, e⟩ <;> rw [e] at h <;> cases h
  rfl

/-- An instruction that raises a fault leaves the latch alone (spec/60_exceptions.md R152). -/
theorem raise_keys {c : FaultCause} {i : Instr} {d : Option Word} {s t : State} (h : raise c i d s = .next t) :
    t.keys = s.keys := by
  cases h
  rfl

/-- An access from I leaves the latch alone where its reads and writes do. -/
theorem accessAtIndex_keys {count : Nat} {i : Instr} {access : State → Option State} {s t : State}
    (haccess : ∀ u, access s = some u → u.keys = s.keys) (h : accessAtIndex count i access s = .next t) :
    t.keys = s.keys := by
  rcases accessAtIndex_cases count i access s with ⟨-, u, hu, e⟩ | e <;> rw [e] at h <;> cases h
  · exact haccess t hu
  · rfl

/-! ### The input latch under an instruction and under an operation -/

/-- No instruction changes the latch: "The block never changes KEYS itself" (spec/46_host_operations.md R138). The instructions
that can fault and the wait for a key are taken apart; each of the others is a composition of writes to other fields. -/
theorem exec_keys {i : Instr} {s t : State} (h : exec i s = .next t) : t.keys = s.keys := by
  cases i
  case ret =>
    simp only [exec, execRet] at h
    split at h
    next => exact raise_keys h
    next hpop =>
      cases h
      rw [setPc_keys, pop_keys hpop]
  case call nnn =>
    simp only [exec, execCall] at h
    split at h
    next => exact raise_keys h
    next hpush =>
      cases h
      rw [setPc_keys, push_keys hpush]
  case skp x | sknp x =>
    simp only [exec, execSkp, execSknp] at h
    split at h
    next => exact raise_keys h
    next =>
      cases h
      exact skipIf_keys _ s
  case drw x y n =>
    refine accessAtIndex_keys (fun u hu => ?_) h
    obtain ⟨bs, -, -, rfl⟩ := readAndDraw_cases x y n s u hu
    exact drawn_keys x y bs s
  case ldB x | storeRegs x => exact accessAtIndex_keys (fun _ => writeBytes_keys) h
  case loadRegs x =>
    refine accessAtIndex_keys (fun u hu => ?_) h
    obtain ⟨bs, -, -, rfl⟩ := loadFirstV_cases x s u hu
    exact writeVFrom_keys 0 bs s
  case ldVxK x =>
    simp only [exec, execLdVxK] at h
    split at h <;> cases h <;> rfl
  all_goals
    cases h
    simp

/-- A step leaves the latch alone, whether it faults, executes an instruction or reports an unrecognised word. -/
theorem step_keys {s t : State} (h : step s = .next t) : t.keys = s.keys := by
  obtain ⟨-, ⟨-, rfl⟩ | ⟨op, -, -, ⟨i, -, hexec⟩ | ⟨-, rfl⟩⟩⟩ := step_cases s t h
  · rfl
  · rw [exec_keys hexec, advancePc_keys, clearOut_keys]
  · rfl

theorem load_keys {image : List Byte} {s t : State} (h : perform (.load image) s = .next t) : t.keys = s.keys := by
  rcases load_cases image s with ⟨-, e⟩ | ⟨-, -, e⟩ | ⟨-, -, u, e, hwrite⟩ <;>
    simp only [perform, e] at h <;> cases h
  · rfl
  · rw [writeBytes_keys hwrite, markLoaded_keys, clearOut_keys]

@[simp] theorem tick_keys (s : State) : (tick s).keys = s.keys := by
  unfold tick
  split <;> rfl

/-- Only reset and set_keys change the latch (spec/46_host_operations.md R136, R138). -/
theorem perform_keys {o : Operation} {s t : State} (hset : ∀ k, o ≠ .setKeys k) (hreset : o ≠ .reset)
    (h : perform o s = .next t) : t.keys = s.keys := by
  cases o with
  | reset => exact absurd rfl hreset
  | load image => exact load_keys h
  | step => exact step_keys h
  | tick =>
    cases h
    exact tick_keys s
  | setKeys k => exact absurd rfl (hset k)
  | snapshot =>
    cases h
    rfl

/-! ### set_keys and snapshot -/

/-- Everything set_keys does: each key is the one given, and only the event list is emptied beside (spec/46_host_operations.md
R136, R138). -/
theorem setKeys_spec (k : Vector Bool 16) (s : State) :
    (∀ j : Nibble, keyPressed j (setKeys k s) = k[j.toNat]) ∧
      setKeys k s = { s with keys := (setKeys k s).keys, out := [] } :=
  ⟨fun _ => rfl, rfl⟩

/-- A snapshot shows each pixel of the buffer, row first (spec/46_host_operations.md R139). -/
theorem snapshot_getElem? (s : State) {row col : Nat} (hrow : row < 32) (hcol : col < 64) :
    ((snapshot s)[row]?.bind fun r => r[col]?) = some (pixel s.fb row col) := by
  simp [snapshot, pixel, hrow, hcol, Nat.mod_eq_of_lt]

/-! The statement about set_keys and snapshot. -/

/-- Settles O50: set_keys replaces the latch, `perform_keys` keeps it under the other operations, and a snapshot answers the
state it is taken of. -/
theorem setKeysReplacesAndSnapshotReads : Obligations.SetKeysReplacesAndSnapshotReads := by
  exact ⟨fun k s => ⟨setKeys k s, rfl, setKeys_spec k s⟩, fun o s t hset hreset h => perform_keys hset hreset h,
    fun s => ⟨rfl, fun row col hrow hcol => snapshot_getElem? s hrow hcol⟩⟩

end Sys2Proof

namespace Sys2Proof

open Machine

/-! SUPPORT. What registers, pixels and the font area read as after a reset, whatever the state before it was. -/

/-- The font fills its area. -/
theorem font_length : Config.font.length = Config.fontSize := rfl

/-- In the font area an address that memory does not list holds its byte of the font (spec/20_memory.md R36). -/
theorem initialByte_font {k : Nat} (hk : k < Config.fontSize) :
    some (initialByte (Config.fontBase + k)) = Config.font[k]? := by
  have harea : Config.fontBase ≤ Config.fontBase + k ∧ Config.fontBase + k < Config.fontBase + Config.fontSize := by omega
  have hbyte : k < Config.font.length := font_length ▸ hk
  rw [initialByte, if_pos harea, Nat.add_sub_cancel_left, List.getD_eq_getElem _ _ hbyte, List.getElem?_eq_getElem hbyte]

/-- After a reset every register holds 0. -/
@[simp] theorem readV_resetBlock (x : RegNum) (s : State) : readV x (resetBlock s) = 0 := by
  simp [readV, State.reset]

/-- After a reset the display is blank. -/
theorem resetBlock_fb_blank (s : State) : (resetBlock s).fb = blankDisplay := rfl

/-- After a reset memory lists nothing, so that an address reads its reset contents. -/
theorem memRead_resetBlock {a : Nat} (s : State) (ha : a ≤ 0xFFF) :
    memRead a (resetBlock s) = some (initialByte a) := memRead_inside (resetBlock s) ha

/-! The statement about the reset values that the document states. -/

/-- Settles O1: every register, I, PC and every pixel at its value after a reset, and the font area read through memory that
lists nothing. -/
theorem resetGivesStatedValues : Obligations.ResetGivesStatedValues := by
  intro s
  refine ⟨resetBlock s, rfl, fun x => readV_resetBlock x s, rfl, rfl, fun row col => ?_, font_length, fun k hk => ?_⟩
  · rw [resetBlock_fb_blank, pixel_blank]
  · rw [memRead_resetBlock s (by omega), initialByte_font hk]

end Sys2Proof

namespace Sys2Proof

/-! SUPPORT. The encoder undoes the decoder, word by word and on bytes as they lie in memory (spec/30_encoding.md R50 to R55). -/

/-! ### A word of a known family -/

theorem packAddr_of_family {op : Word} {f : Nibble} (hf : fieldFamily op = f) : packAddr f (fieldNnn op) = op :=
  hf ▸ word_of_addr op

theorem packByte_of_family {op : Word} {f : Nibble} (hf : fieldFamily op = f) :
    packByte f (fieldX op) (fieldNn op) = op := hf ▸ word_of_byte op

theorem packNibbles_of_family {op : Word} {f : Nibble} (hf : fieldFamily op = f) :
    packNibbles f (fieldX op) (fieldY op) (fieldN op) = op := hf ▸ word_of_nibbles op

/-! ### Encoding what a word decodes to, family by family -/

theorem encode_of_decode_open {op : Word} {i : Instr} (hf : fieldFamily op ∈ openFamilies) (h : decodeWord op = .ok i) :
    encode i = op := by
  rw [mem_openFamilies] at hf
  rcases hf with hf | hf | hf | hf | hf | hf | hf | hf | hf | hf <;> rw [decodeWord, hf] at h <;> cases h
  exacts [packAddr_of_family hf, packAddr_of_family hf, packByte_of_family hf, packByte_of_family hf, packByte_of_family hf,
    packByte_of_family hf, packAddr_of_family hf, packAddr_of_family hf, packByte_of_family hf, packNibbles_of_family hf]

theorem encode_of_decodeFamily0 {op : Word} {i : Instr} (h : decodeFamily0 op = .ok i) : encode i = op := by
  unfold decodeFamily0 at h; split_ifs at h <;> cases h <;> exact ‹op = _›.symm

theorem encode_of_decodeFamily8 {op : Word} {i : Instr} (hf : fieldFamily op = 0x8) (h : decodeFamily8 op = .ok i) :
    encode i = op := by
  have hword := packNibbles_of_family hf
  unfold decodeFamily8 at h; split_ifs at h <;> cases h <;> rwa [‹fieldN op = _›] at hword

theorem encode_of_decodeFamilyE {op : Word} {i : Instr} (hf : fieldFamily op = 0xE) (h : decodeFamilyE op = .ok i) :
    encode i = op := by
  have hword := packByte_of_family hf
  unfold decodeFamilyE at h; split_ifs at h <;> cases h <;> rwa [‹fieldNn op = _›] at hword

theorem encode_of_decodeFamilyF {op : Word} {i : Instr} (hf : fieldFamily op = 0xF) (h : decodeFamilyF op = .ok i) :
    encode i = op := by
  have hword := packByte_of_family hf
  unfold decodeFamilyF at h; split_ifs at h <;> cases h <;> rwa [‹fieldNn op = _›] at hword

/-- A word that decodes is the word of what it decodes to: every bit is a fixed digit or a field. -/
theorem encode_of_decodeWord {op : Word} {i : Instr} (h : decodeWord op = .ok i) : encode i = op := by
  rcases family_cases (fieldFamily op) with hf | hf | hf | hf | hf | hf | hf
  · exact encode_of_decode_open hf h
  · exact encode_of_decodeFamily0 (decodeWord_family0 hf ▸ h)
  · obtain ⟨hn, rfl⟩ := decodeLowZero_eq_ok.mp (decodeWord_family5 hf ▸ h)
    have hword := packNibbles_of_family hf
    rwa [hn] at hword
  · exact encode_of_decodeFamily8 hf (decodeWord_family8 hf ▸ h)
  · obtain ⟨hn, rfl⟩ := decodeLowZero_eq_ok.mp (decodeWord_family9 hf ▸ h)
    have hword := packNibbles_of_family hf
    rwa [hn] at hword
  · exact encode_of_decodeFamilyE hf (decodeWord_familyE hf ▸ h)
  · exact encode_of_decodeFamilyF hf (decodeWord_familyF hf ▸ h)

/-! ### Decoding bytes -/

/-- The decoder takes the first two bytes as one word and leaves the rest (spec/30_encoding.md R50). -/
theorem decode_eq_ok_iff {hi lo : Byte} {bytes rest : List Byte} {i : Instr} :
    decode (hi :: lo :: bytes) = .ok (i, rest) ↔ decodeWord (wordOfBytes hi lo) = .ok i ∧ rest = bytes := by
  rw [decode]
  cases hword : decodeWord (wordOfBytes hi lo) <;> simp [eq_comm]

/-- The bytes of the word of two bytes are these bytes (spec/20_memory.md R33). -/
theorem bytes_of_wordOfBytes (hi lo : Byte) :
    [(wordOfBytes hi lo).extractLsb' 8 8, (wordOfBytes hi lo).extractLsb' 0 8] = [hi, lo] := by
  have hhi : (wordOfBytes hi lo).extractLsb' 8 8 = hi := BitVec.eq_of_toNat_eq (by
    rw [BitVec.extractLsb'_toNat, wordOfBytes_toNat, Nat.shiftRight_eq_div_pow]; omega)
  have hlo : (wordOfBytes hi lo).extractLsb' 0 8 = lo := BitVec.eq_of_toNat_eq (by
    rw [BitVec.extractLsb'_toNat, wordOfBytes_toNat, Nat.shiftRight_eq_div_pow]; omega)
  rw [hhi, hlo]

/-! The statements about the round trips and the sample words. -/

/-- Settles O6: the two bytes make the encoded word again, and the word decodes to its instruction. -/
theorem decodeOfEncodeIsIdentity : Obligations.DecodeOfEncodeIsIdentity := by
  intro i rest _
  refine decode_eq_ok_iff.mpr ⟨?_, rfl⟩
  rw [wordOfBytes_split, decodeWord_encode]

/-- Settles O7: the decoded word is the encoded one, and its bytes are the bytes it was made of. -/
theorem encodeOfDecodeIsIdentity : Obligations.EncodeOfDecodeIsIdentity := by
  intro hi lo bytes rest i h
  obtain ⟨hword, hrest⟩ := decode_eq_ok_iff.mp h
  exact ⟨by rw [encodeBytes, encode_of_decodeWord hword, bytes_of_wordOfBytes], hrest⟩

/-- Settles O10: each word is evaluated. -/
theorem sampleWordsDecode : Obligations.SampleWordsDecode := by
  unfold Obligations.SampleWordsDecode
  decide

end Sys2Proof

namespace Sys2Proof

open Machine

/-! SUPPORT. What an instruction can do, said once for all 34: it always answers a state, which leaves everything outside the
instruction's effects as it was, or it raises one fault and does nothing else. -/

/-! ### The two ways an instruction ends -/

/-- From `s` to `t` nothing changes outside the effects `e`; the key latch, the record of a load and the fault latch are outside
the effects of every instruction. -/
structure KeepsOutside (e : Effects) (s t : State) : Prop where
  regs : ∀ z, e.regs z = false → readV z t = readV z s
  index : e.index = false → t.index = s.index
  pc : e.movesPc = false → t.pc = s.pc
  stack : e.stack = false → t.stack = s.stack ∧ t.sp = s.sp
  lookup : ∀ a, a < indexedAddress 0 s ∨ indexedAddress 0 s + e.stores ≤ a → t.mem.lookup a = s.mem.lookup a
  memWf : s.mem.wf = true → t.mem.wf = true
  display : e.display = false → t.fb = s.fb
  delay : e.delay = false → t.dt = s.dt
  sound : e.sound = false → t.st = s.st
  random : e.random = false → t.draws = s.draws
  out : e.dirty = false → t.out = s.out
  keys : t.keys = s.keys
  loaded : t.loaded = s.loaded
  fault : t.fault = s.fault

/-- The instruction `i`, run at the advanced PC of `s`, raises a fault of its own and does nothing else
(spec/60_exceptions.md R152). -/
def Raises (i : Instr) (s t : State) : Prop :=
  ∃ c d, c ≠ .fetchRange ∧ t = raiseAt (s.pc - 2) c (some (encode i)) d s

/-! ### What the shared operations keep -/

section
variable {e : Effects} {s : State}

theorem keepsOutside_self (e : Effects) (s : State) : KeepsOutside e s s where
  regs _ _ := rfl
  index _ := rfl
  pc _ := rfl
  stack _ := ⟨rfl, rfl⟩
  lookup _ _ := rfl
  memWf := id
  display _ := rfl
  delay _ := rfl
  sound _ := rfl
  random _ := rfl
  out _ := rfl
  keys := rfl
  loaded := rfl
  fault := rfl

theorem keepsOutside_writeV {x : RegNum} (hx : e.regs x = true) (b : Byte) : KeepsOutside e s (writeV x b s) :=
  { keepsOutside_self e s with
    regs := fun z hz => readV_writeV_other b s (by rintro rfl; simp [hx] at hz) }

theorem keepsOutside_writeFlagThenResult {x : RegNum} (hx : e.regs x = true) (hF : e.regs regF = true) (flag : Bool)
    (r : Byte) : KeepsOutside e s (writeFlagThenResult flag x r s) :=
  { keepsOutside_self e s with
    regs := fun z hz => by
      rw [readV_writeFlagThenResult, if_neg (by rintro rfl; simp [hx] at hz), if_neg (by rintro rfl; simp [hF] at hz)] }

theorem keepsOutside_setPc (hpc : e.movesPc = true) (a : Word) : KeepsOutside e s (setPc a s) :=
  { keepsOutside_self e s with pc := fun h => by simp [hpc] at h }

theorem keepsOutside_skipIf (hpc : e.movesPc = true) (c : Bool) : KeepsOutside e s (skipIf c s) := by
  rw [skipIf_eq]
  exact keepsOutside_setPc hpc _

theorem keepsOutside_setIndex (hindex : e.index = true) (a : Word) : KeepsOutside e s (setIndex a s) :=
  { keepsOutside_self e s with index := fun h => by simp [hindex] at h }

theorem keepsOutside_setFb (hdisplay : e.display = true) (d : Display) : KeepsOutside e s (setFb d s) :=
  { keepsOutside_self e s with display := fun h => by simp [hdisplay] at h }

theorem keepsOutside_setDt (hdelay : e.delay = true) (b : Byte) : KeepsOutside e s (setDt b s) :=
  { keepsOutside_self e s with delay := fun h => by simp [hdelay] at h }

theorem keepsOutside_setSt (hsound : e.sound = true) (b : Byte) : KeepsOutside e s (setSt b s) :=
  { keepsOutside_self e s with sound := fun h => by simp [hsound] at h }

theorem keepsOutside_drawRandom {x : RegNum} (hx : e.regs x = true) (hrandom : e.random = true) (b : Byte) :
    KeepsOutside e s (writeV x b (drawRandom s).2) :=
  { keepsOutside_writeV hx b with random := fun h => by simp [hrandom] at h }

/-- A write of bytes from I on keeps every byte outside its range, and the canonical form of memory. -/
theorem keepsOutside_writeBytes {bs : List Byte} {t : State} (hlength : bs.length = e.stores)
    (h : writeBytes (indexedAddress 0 s) bs s = some t) : KeepsOutside e s t := by
  obtain ⟨hrest, hwf, hother, -⟩ := writeBytes_spec _ bs s t h
  rw [hrest]
  exact { keepsOutside_self e s with lookup := fun a ha => hother a (hlength ▸ ha), memWf := hwf }

/-- A load of `x + 1` bytes keeps the registers above Vx. -/
theorem keepsOutside_writeVFrom {x : RegNum} {bs : List Byte} (hregs : ∀ z, e.regs z = false → x.toNat < z.toNat)
    (hlength : bs.length = x.toNat + 1) : KeepsOutside e s (writeVFrom 0 bs s) := by
  have hother : ∀ z, e.regs z = false → readV z (writeVFrom 0 bs s) = readV z s := fun z hz => by
    have hz := hregs z hz
    rw [readV_writeVFrom 0 bs s (by omega), List.getElem?_eq_none (by omega)]
    simp
  rw [writeVFrom_eq] at hother ⊢
  exact { keepsOutside_self e s with regs := hother }

theorem keepsOutside_drawn (hF : e.regs regF = true) (hdisplay : e.display = true) (hdirty : e.dirty = true) (x y : RegNum)
    (bs : List Byte) : KeepsOutside e s (drawn x y bs s) :=
  { keepsOutside_self e s with
    regs := fun z hz => readV_writeV_other _ _ (by rintro rfl; simp [hF] at hz)
    display := fun h => by simp [hdisplay] at h
    out := fun h => by simp [hdirty] at h }

theorem keepsOutside_push (hstack : e.stack = true) {a : Word} {t : State} (h : push a s = some t) : KeepsOutside e s t := by
  rcases push_cases a s with ⟨_, heq⟩ | ⟨_, heq⟩ <;> rw [heq] at h <;> cases h
  exact { keepsOutside_self e s with stack := fun h => by simp [hstack] at h }

theorem keepsOutside_pop (hstack : e.stack = true) {a : Word} {t : State} (h : pop s = some (a, t)) : KeepsOutside e s t := by
  rcases pop_cases s with ⟨_, heq⟩ | ⟨_, heq⟩ <;> rw [heq] at h <;> cases h
  exact { keepsOutside_self e s with stack := fun h => by simp [hstack] at h }

/-- A transfer whose target is set last keeps what the state before it keeps. -/
theorem KeepsOutside.andSetPc {t : State} (hpc : e.movesPc = true) (h : KeepsOutside e s t) (a : Word) :
    KeepsOutside e s (setPc a t) :=
  { h with pc := fun hno => by simp [hpc] at hno }

end

@[simp] theorem onlyReg_self (x : RegNum) : onlyReg x x = true := beq_self_eq_true x

@[simp] theorem regAndFlag_self (x : RegNum) : regAndFlag x x = true := by simp [regAndFlag]

@[simp] theorem regAndFlag_regF (x : RegNum) : regAndFlag x regF = true := by simp [regAndFlag]

/-! ### Every instruction -/

/-- How an instruction ends: it completes within its effects, or it is one that can fault and raises. -/
def Ends (i : Instr) (s t : State) : Prop :=
  KeepsOutside (effects i) s t ∨ ((effects i).canFault = true ∧ Raises i s t)

theorem raise_ends {i : Instr} {c : FaultCause} (hcan : (effects i).canFault = true) (hc : c ≠ .fetchRange)
    (d : Option Word) (s : State) : ∃ t, raise c i d s = .next t ∧ Ends i s t := ⟨_, rfl, .inr ⟨hcan, c, d, hc, rfl⟩⟩

/-- An instruction that accesses memory from I ends as its accesses do, or raises `MemRange` (spec/20_memory.md R42). -/
theorem accessAtIndex_ends {count : Nat} {i : Instr} {access : State → Option State} {s : State}
    (hfault : (effects i).canFault = true) (haccess : ∀ u, access s = some u → KeepsOutside (effects i) s u) :
    ∃ t, accessAtIndex count i access s = .next t ∧ Ends i s t := by
  rcases accessAtIndex_cases count i access s with ⟨-, u, hu, heq⟩ | heq
  · exact ⟨u, heq, .inl (haccess u hu)⟩
  · exact ⟨_, heq, .inr ⟨hfault, _, _, by decide, rfl⟩⟩

/-- Every instruction answers a next state, from every state, and ends in one of the two ways. -/
theorem exec_ends (i : Instr) (s : State) : ∃ t, exec i s = .next t ∧ Ends i s t := by
  cases i with
  | cls => exact ⟨_, rfl, .inl (keepsOutside_setFb rfl _)⟩
  | ret =>
    simp only [exec, execRet]
    split
    next => exact raise_ends rfl (by decide) _ s
    next hpop => exact ⟨_, rfl, .inl ((keepsOutside_pop rfl hpop).andSetPc rfl _)⟩
  | call nnn =>
    simp only [exec, execCall]
    split
    next => exact raise_ends rfl (by decide) _ s
    next hpush => exact ⟨_, rfl, .inl ((keepsOutside_push rfl hpush).andSetPc rfl _)⟩
  | skp x | sknp x =>
    simp only [exec, execSkp, execSknp, raiseKeyRange]
    split
    next => exact raise_ends rfl (by decide) _ s
    next => exact ⟨_, rfl, .inl (keepsOutside_skipIf rfl _)⟩
  | ldVxK x =>
    simp only [exec, execLdVxK]
    split
    next => exact ⟨_, rfl, .inl (keepsOutside_setPc rfl _)⟩
    next => exact ⟨_, rfl, .inl (keepsOutside_writeV (onlyReg_self x) _)⟩
  | drw x y n =>
    refine accessAtIndex_ends rfl fun u hu => ?_
    obtain ⟨bs, -, -, rfl⟩ := readAndDraw_cases x y n s u hu
    exact keepsOutside_drawn (onlyReg_self regF) rfl rfl x y bs
  | ldB x => exact accessAtIndex_ends rfl fun u hu => keepsOutside_writeBytes rfl hu
  | storeRegs x => exact accessAtIndex_ends rfl fun u hu => keepsOutside_writeBytes (firstV_length x s) hu
  | loadRegs x =>
    refine accessAtIndex_ends rfl fun u hu => ?_
    obtain ⟨bs, -, hlength, rfl⟩ := loadFirstV_cases x s u hu
    exact keepsOutside_writeVFrom (fun z hz => by simpa [effects] using hz) hlength
  | jp nnn | jpV0 nnn => exact ⟨_, rfl, .inl (keepsOutside_setPc rfl _)⟩
  | seImm x nn | sneImm x nn => exact ⟨_, rfl, .inl (keepsOutside_skipIf rfl _)⟩
  | seReg x y | sneReg x y => exact ⟨_, rfl, .inl (keepsOutside_skipIf rfl _)⟩
  | ldI nnn => exact ⟨_, rfl, .inl (keepsOutside_setIndex rfl _)⟩
  | addI x | ldF x => exact ⟨_, rfl, .inl (keepsOutside_setIndex rfl _)⟩
  | rnd x nn => exact ⟨_, rfl, .inl (keepsOutside_drawRandom (onlyReg_self x) rfl _)⟩
  | ldDtVx x => exact ⟨_, rfl, .inl (keepsOutside_setDt rfl _)⟩
  | ldStVx x => exact ⟨_, rfl, .inl (keepsOutside_setSt rfl _)⟩
  | ldVxDt x => exact ⟨_, rfl, .inl (keepsOutside_writeV (onlyReg_self x) _)⟩
  | ldImm x nn | addImm x nn => exact ⟨_, rfl, .inl (keepsOutside_writeV (onlyReg_self x) _)⟩
  | ldReg x y | orReg x y | andReg x y | xorReg x y =>
    exact ⟨_, rfl, .inl (keepsOutside_writeV (onlyReg_self x) _)⟩
  | addReg x y | subReg x y | shr x y | subn x y | shl x y =>
    exact ⟨_, rfl, .inl (keepsOutside_writeFlagThenResult (regAndFlag_self x) (regAndFlag_regF x) _ _)⟩

/-- The same for a given next state. -/
theorem ends_of_exec {i : Instr} {s t : State} (h : exec i s = .next t) : Ends i s t := by
  obtain ⟨u, hu, hends⟩ := exec_ends i s
  cases hu.symm.trans h
  exact hends

/-! The frames over all instructions. -/

/-- Settles O52: a completed instruction keeps the registers outside its effects, and a fault keeps all of them. -/
theorem registersFrame : Obligations.RegistersFrame := by
  intro i s t z h hz
  rcases ends_of_exec h with hkeeps | ⟨-, c, d, -, rfl⟩
  · exact hkeeps.regs z hz
  · rfl

/-- Settles O53: a byte outside the stored range lies below or above it. -/
theorem memoryFrame : Obligations.MemoryFrame := by
  intro i s t h a ha
  have hoff : a < indexedAddress 0 s ∨ indexedAddress 0 s + (effects i).stores ≤ a := by
    unfold StoresTo at ha
    omega
  rcases ends_of_exec h with hkeeps | ⟨-, c, d, -, rfl⟩
  · simp only [memRead, hkeeps.lookup a hoff]
  · rfl

/-- Settles O54: field by field from the two ways an instruction ends. -/
theorem specialStateFrame : Obligations.SpecialStateFrame := by
  intro i s t h
  rcases ends_of_exec h with hkeeps | ⟨-, c, d, -, rfl⟩
  · exact ⟨hkeeps.index, hkeeps.stack, hkeeps.display, hkeeps.delay, hkeeps.sound, hkeeps.random, hkeeps.keys, hkeeps.loaded⟩
  · simp

/-- An instruction that reports a draw can fault. -/
theorem dirty_of_cannotFault {i : Instr} (h : (effects i).canFault = false) : (effects i).dirty = false := by
  cases i
  case drw => exact absurd h (by simp [effects])
  all_goals rfl

/-- Settles O55: an instruction that cannot fault completes, and one that raises takes PC back with the latch set. -/
theorem faultEventAndPcFrame : Obligations.FaultEventAndPcFrame := by
  intro i s t h
  rcases ends_of_exec h with hkeeps | ⟨hcan, c, d, -, rfl⟩
  · exact ⟨fun hcannot => ⟨hkeeps.fault, hkeeps.out (dirty_of_cannotFault hcannot)⟩, fun hpc => .inl (hkeeps.pc hpc)⟩
  · refine ⟨fun hcannot => ?_, fun _ => .inr ⟨raiseAt_pc .., hcan, by simp⟩⟩
    rw [hcan] at hcannot
    cases hcannot

end Sys2Proof

namespace Sys2Proof

open Machine

/-! SUPPORT. What a step does from what lies at PC, given the fault latch is clear (spec/40_cycle.md R70 to R74), and what a load
that answers a state is. -/

/-! ### The step from the word at PC -/

theorem exists_nextWord {s : State} (hpc : s.pc.toNat ≤ 0xFFE) : ∃ op, NextWord s op :=
  ⟨wordOfBytes _ _, _, _, memRead_inside s (by omega), memRead_inside s (by omega), wordOfBytes_toNat _ _⟩

/-- The fetch hands over the two bytes of the word at PC. -/
theorem fetchBytes_of_nextWord {s : State} {op : Word} (h : NextWord s op) :
    ∃ hi lo, fetchBytes s = some [hi, lo] ∧ wordOfBytes hi lo = op := by
  obtain ⟨hi, lo, hhi, hlo, hop⟩ := h
  refine ⟨hi, lo, ?_, BitVec.eq_of_toNat_eq ((wordOfBytes_toNat hi lo).trans hop.symm)⟩
  simp only [fetchBytes, readBytes, hhi, hlo]

theorem step_of_decodes {s : State} {op : Word} {i : Instr} (hfault : s.fault = none) (hword : NextWord s op)
    (hdecode : decodeWord op = .ok i) : step s = exec i (advancePc (clearOut s)) := by
  obtain ⟨hi, lo, hfetch, rfl⟩ := fetchBytes_of_nextWord hword
  simp only [step, hfault, hfetch, decode, hdecode]

theorem step_of_rejects {s : State} {op : Word} {r : DecodeReject} (hfault : s.fault = none) (hword : NextWord s op)
    (hdecode : decodeWord op = .error r) : step s = .next (reportUnknown r (advancePc (clearOut s))) := by
  obtain ⟨hi, lo, hfetch, rfl⟩ := fetchBytes_of_nextWord hword
  simp only [step, hfault, hfetch, decode, hdecode]

theorem step_of_fetchRange {s : State} (hfault : s.fault = none) (hpc : 0xFFE < s.pc.toNat) :
    step s = .next (raiseFetch (clearOut s)) := by
  have hfetch : fetchBytes s = none := by rw [fetchBytes, readBytes_two, if_neg (by omega)]
  simp only [step, hfault, hfetch]

theorem step_of_faulted {s : State} {c : FaultCause} (hfault : s.fault = some c) : step s = .fault (.halted c) := by
  simp only [step, hfault]

/-! ### A load that answers a state -/

/-- A load succeeds before the first step only, with an image that fits, and is its byte writes. -/
theorem writeBytes_of_load {image : List Byte} {s t : State} (h : load image s = .ok t) :
    atBoot s = true ∧ writeBytes Config.progBase image (markLoaded (clearOut s)) = some t := by
  rcases load_cases image s with ⟨-, e⟩ | ⟨-, -, e⟩ | ⟨hboot, -, u, e, hwrite⟩ <;> rw [e] at h <;> cases h
  exact ⟨hboot, hwrite⟩

/-- Everything a load that answers a state can do: it succeeds, or the image is too large and nothing happens. -/
theorem perform_load_cases {image : List Byte} {s t : State} (h : perform (.load image) s = .next t) :
    (load image s = .ok t ∨ t = s) ∧ atBoot s = true := by
  rcases load_cases image s with ⟨-, e⟩ | ⟨hboot, -, e⟩ | ⟨hboot, -, u, e, -⟩ <;>
    simp only [perform, e] at h <;> cases h
  · exact ⟨.inr rfl, hboot⟩
  · exact ⟨.inl e, hboot⟩

/-! The statements about the step. -/

/-- Settles O11: the two bytes are the word at PC. -/
theorem stepRunsDecodedInstruction : Obligations.StepRunsDecodedInstruction := by
  intro s hi lo i hfault hhi hlo hdecode
  refine step_of_decodes hfault ⟨hi, lo, hhi, hlo, ?_⟩ hdecode
  rw [BitVec.toNat_ofNat, Nat.mod_eq_of_lt (by omega)]

/-- Settles O12: the decoder rejects the word, and the report names the address before the advance. -/
theorem unrecognisedWordIsReportedNop : Obligations.UnrecognisedWordIsReportedNop := by
  intro s op hfault hword hrecognised
  have hreject := (decoderAcceptsExactlyRecognisedWords op).2 hrecognised
  rw [step_of_rejects hfault hword hreject]
  simp [reportUnknown, emit, advancePc, setPc, clearOut]

/-- Settles O13: the fetch answers no bytes, and the fault is raised where PC is. -/
theorem fetchOutOfRangeFaults : Obligations.FetchOutOfRangeFaults :=
  fun _ hfault hpc => step_of_fetchRange hfault hpc

/-- Settles O14: a step faults in the fetch, runs an instruction or reports a word; the first and the last answer a state at
once, and every instruction answers one. -/
theorem stepStopsExactlyWhenFaulted : Obligations.StepStopsExactlyWhenFaulted := by
  have hexec : ∀ (i : Instr) (s : State), ∃ t, exec i s = .next t := fun i s => (exec_ends i s).imp fun _ h => h.1
  refine ⟨fun s hfault => ?_, fun s c hfault => step_of_faulted hfault, hexec⟩
  by_cases hpc : s.pc.toNat ≤ 0xFFE
  · obtain ⟨op, hword⟩ := exists_nextWord hpc
    rcases decodeWord_cases op with ⟨i, hi⟩ | hreject
    · rw [step_of_decodes hfault hword hi]
      exact hexec i _
    · exact ⟨_, step_of_rejects hfault hword hreject⟩
  · exact ⟨_, step_of_fetchRange hfault (by omega)⟩

/-- Settles O15: of the three things a step can do, the report of a word leaves the latch clear, and the others raise at the
fetch address, an instruction with the word it was decoded from. -/
theorem faultsArePrecise : Obligations.FaultsArePrecise := by
  intro s t c h hc
  obtain ⟨hfault, ⟨-, rfl⟩ | ⟨op, hpc, hop, ⟨i, hdecode, hexec⟩ | ⟨-, rfl⟩⟩⟩ := step_cases s t h
  · cases hc
    exact ⟨none, some s.pc, rfl, by simp, by simp⟩
  · rcases ends_of_exec hexec with hkeeps | ⟨-, c', d, hne, rfl⟩
    · rw [hkeeps.fault, advancePc_fault, clearOut_fault, hfault] at hc
      cases hc
    · cases hc
      have hword : NextWord s (encode i) := by
        rw [encode_of_decodeWord hdecode, hop]
        exact ⟨_, _, memRead_inside s (by omega), memRead_inside s (by omega), wordOfBytes_toNat _ _⟩
      refine ⟨some (encode i), d, ?_, by simpa using hne, by simpa using hword⟩
      simp [raiseAt_eq, advancePc, setPc, clearOut]
  · change s.fault = some c at hc
    rw [hfault] at hc
    cases hc

/-- Settles O16: a step answers no state, a load that succeeds writes memory, and the other operations write no latch. -/
theorem onlyResetClearsFault : Obligations.OnlyResetClearsFault := by
  intro o s t c hreset hfault h
  cases o with
  | reset => exact absurd rfl hreset
  | load image =>
    obtain ⟨hload | rfl, -⟩ := perform_load_cases h
    · rw [(writeBytes_spec _ _ _ _ (writeBytes_of_load hload).2).1]
      exact hfault
    · exact hfault
  | step =>
    rw [perform, step_of_faulted hfault] at h
    cases h
  | tick =>
    cases h
    unfold tick
    split <;> exact hfault
  | setKeys k | snapshot =>
    cases h
    exact hfault

/-- Settles O17: a fetch fault and an unrecognised word emit one event, an instruction at most one, and a step starts by
emptying the list. -/
theorem stepEmitsAtMostOneEvent : Obligations.StepEmitsAtMostOneEvent := by
  refine ⟨fun s t h => ?_, fun s e => ?_⟩
  · obtain ⟨-, ⟨-, rfl⟩ | ⟨op, -, -, ⟨i, -, hexec⟩ | ⟨-, rfl⟩⟩⟩ := step_cases s t h
    · simp [raiseFetch]
    · rcases exec_kinds i _ t hexec with ⟨-, hout | hout⟩ | ⟨c, d, rfl, -⟩
      · simp [hout]
      · simp [hout]
      · simp
    · simp [reportUnknown]
  · have hfetch : fetchBytes { s with out := e } = fetchBytes s := readBytes_congr s.pc.toNat 2 rfl
    simp only [step, hfetch]
    rfl

end Sys2Proof

namespace Sys2Proof

open Machine

/-! SUPPORT. The invariant: what an instruction, a step and the host's operations do to the index register, PC, the stack and the
canonical form of memory. -/

/-! ### Bounds on operands -/

@[simp] theorem wordOperand_toNat (x : RegNum) (s : State) : (wordOperand x s).toNat = (readV x s).toNat :=
  BitVec.toNat_setWidth_of_le (by decide)

/-- A reduced value fits the register unreduced by its width. -/
@[simp] theorem mod4096_toNat (a : Word) : (mod4096 a).toNat = a.toNat % 4096 := by
  have hfits : a.toNat % 4096 < 2 ^ 16 := by omega
  rw [mod4096, BitVec.toNat_ofNat, Nat.mod_eq_of_lt hfits]

/-- The target of an indexed jump is the true sum (spec/41_flow.md R88). -/
theorem indexedTarget_toNat (nnn : Addr) (x : RegNum) (s : State) :
    (addressOperand nnn + wordOperand x s).toNat = nnn.toNat + (readV x s).toNat := by
  rw [BitVec.toNat_add, addressOperand_toNat, wordOperand_toNat, Nat.mod_eq_of_lt (by omega)]

/-! ### What an instruction does to I, PC and the stack -/

/-- I stays at most 0xFFF (spec/10_state.md R12): the three instructions that write it reduce it or load a short value. -/
theorem exec_index_le {i : Instr} {s t : State} (hindex : s.index.toNat ≤ 0xFFF) (h : exec i s = .next t) :
    t.index.toNat ≤ 0xFFF := by
  cases hwrites : (effects i).index with
  | false =>
    rcases ends_of_exec h with hkeeps | ⟨-, c, d, -, rfl⟩
    · rwa [hkeeps.index hwrites]
    · exact hindex
  | true =>
    cases i
    case ldI nnn | addI x | ldF x =>
      cases h
      simp
      omega
    all_goals cases hwrites

theorem skipIf_pc (c : Bool) (s : State) : (skipIf c s).pc = s.pc ∨ (skipIf c s).pc = s.pc + 2 := by
  cases c
  · exact .inl rfl
  · exact .inr rfl

/-- Where PC can be after an instruction: where it was, a skip or a rewind away, at a stack entry, or at an address plus a byte. -/
theorem exec_pc_cases {i : Instr} {s t : State} (h : exec i s = .next t) :
    (t.pc = s.pc ∨ t.pc = s.pc + 2) ∨ t.pc = s.pc - 2 ∨ (∃ k : Fin 16, t.pc = s.stack[k]) ∨
      ∃ (nnn : Addr) (b : Byte), t.pc.toNat = nnn.toNat + b.toNat := by
  rcases ends_of_exec h with hkeeps | ⟨-, c, d, -, rfl⟩
  · cases hmoves : (effects i).movesPc with
    | false => exact .inl (.inl (hkeeps.pc hmoves))
    | true =>
      cases i
      case jp nnn =>
        cases h
        exact .inr (.inr (.inr ⟨nnn, 0, addressOperand_toNat nnn⟩))
      case jpV0 nnn =>
        cases h
        exact .inr (.inr (.inr ⟨nnn, readV 0 s, indexedTarget_toNat nnn 0 s⟩))
      case call nnn =>
        simp only [exec, execCall] at h
        split at h <;> cases h
        · exact .inr (.inl rfl)
        · exact .inr (.inr (.inr ⟨nnn, 0, addressOperand_toNat nnn⟩))
      case ret =>
        rcases pop_cases s with ⟨hsp, heq⟩ | ⟨-, heq⟩ <;> simp only [exec, execRet, heq] at h <;> cases h
        · exact .inr (.inr (.inl ⟨⟨s.sp.val - 1, by omega⟩, rfl⟩))
        · exact .inr (.inl rfl)
      case skp x | sknp x =>
        simp only [exec, execSkp, execSknp] at h
        split at h <;> cases h
        · exact .inr (.inl rfl)
        · exact .inl (skipIf_pc _ s)
      case ldVxK x =>
        simp only [exec, execLdVxK] at h
        split at h <;> cases h
        · exact .inr (.inl rfl)
        · exact .inl (.inl rfl)
      case seImm x nn | sneImm x nn | seReg x y | sneReg x y =>
        cases h
        exact .inl (skipIf_pc _ s)
      all_goals cases hmoves
  · exact .inr (.inl rfl)

/-- What the stack can be after an instruction: as it was, or with the advanced PC at one entry. -/
theorem exec_stack_cases {i : Instr} {s t : State} (h : exec i s = .next t) :
    t.stack = s.stack ∨ ∃ k, ∃ hk : k < 16, t.stack = s.stack.set k s.pc hk := by
  rcases ends_of_exec h with hkeeps | ⟨-, c, d, -, rfl⟩
  · cases hwrites : (effects i).stack with
    | false => exact .inl (hkeeps.stack hwrites).1
    | true =>
      cases i
      case call nnn =>
        rcases push_cases s.pc s with ⟨hsp, heq⟩ | ⟨-, heq⟩ <;> simp only [exec, execCall, heq] at h <;> cases h
        · exact .inr ⟨s.sp.val, hsp, rfl⟩
        · exact .inl rfl
      case ret =>
        rcases pop_cases s with ⟨_, heq⟩ | ⟨-, heq⟩ <;> simp only [exec, execRet, heq] at h <;> cases h
        · exact .inl rfl
        · exact .inl rfl
      all_goals cases hwrites
  · exact .inl rfl

theorem exec_mem_wf {i : Instr} {s t : State} (hwf : s.mem.wf = true) (h : exec i s = .next t) : t.mem.wf = true := by
  rcases ends_of_exec h with hkeeps | ⟨-, c, d, -, rfl⟩
  · exact hkeeps.memWf hwf
  · exact hwf

/-! ### The invariant under an instruction, a step and an operation -/

/-- At an advanced PC, which is at least 2 and at most 0x1000, an instruction keeps the invariant. -/
theorem exec_keepsInv {i : Instr} {s t : State} (hlow : 2 ≤ s.pc.toNat) (hhigh : s.pc.toNat ≤ 0x1000) (hinv : Inv s)
    (h : exec i s = .next t) : Inv t := by
  obtain ⟨hwf, hindex, -, hstack⟩ := hinv
  refine ⟨exec_mem_wf hwf h, exec_index_le hindex h, ?_, fun k => ?_⟩
  · rcases exec_pc_cases h with (hpc | hpc) | hpc | ⟨k, hpc⟩ | ⟨nnn, b, hpc⟩
    · rw [hpc]; omega
    · rw [hpc]; bv_omega
    · rw [hpc]; bv_omega
    · rw [hpc]; exact (hstack k).trans (by decide)
    · omega
  · rcases exec_stack_cases h with heq | ⟨j, hj, heq⟩
    · rw [heq]; exact hstack k
    · simp only [heq, Fin.getElem_fin, Vector.getElem_set]
      split
      · exact hhigh
      · exact hstack k

/-- A step fetches at 0xFFE at most, so that the instruction runs at an advanced PC of at most 0x1000. -/
theorem step_keepsInv {s t : State} (hinv : Inv s) (h : step s = .next t) : Inv t := by
  obtain ⟨hwf, hindex, hpc, hstack⟩ := hinv
  obtain ⟨-, ⟨-, rfl⟩ | ⟨op, hfetch, -, hdone⟩⟩ := step_cases s t h
  · exact ⟨hwf, hindex, hpc, hstack⟩
  · have hadvanced : (advancePc (clearOut s)).pc.toNat = s.pc.toNat + 2 := by
      rw [advancePc_pc, clearOut_pc]; bv_omega
    have hinv' : Inv (advancePc (clearOut s)) := ⟨hwf, hindex, by omega, hstack⟩
    rcases hdone with ⟨i, -, hexec⟩ | ⟨-, rfl⟩
    · exact exec_keepsInv (by omega) (by omega) hinv' hexec
    · exact hinv'

theorem reset_inv (d : Nat) : Inv { State.reset with draws := d } := by
  have hindex : State.reset.index.toNat ≤ 0xFFF := by decide
  have hpc : State.reset.pc.toNat ≤ 0x10FE := by decide
  refine ⟨reset_mem_wf, hindex, hpc, fun k => ?_⟩
  simp [State.reset]

theorem load_keepsInv {image : List Byte} {s t : State} (hinv : Inv s) (h : load image s = .ok t) : Inv t := by
  obtain ⟨hwf, hindex, hpc, hstack⟩ := hinv
  obtain ⟨hrest, hmem, -⟩ := writeBytes_spec _ _ _ _ (writeBytes_of_load h).2
  rw [hrest]
  exact ⟨hmem hwf, hindex, hpc, hstack⟩

theorem tick_keepsInv {s : State} (hinv : Inv s) : Inv (tick s) := by
  unfold tick
  split <;> exact hinv

/-- Every operation of the host keeps the invariant. -/
theorem perform_keepsInv {o : Operation} {s t : State} (hinv : Inv s) (h : perform o s = .next t) : Inv t := by
  cases o with
  | reset =>
    cases h
    exact reset_inv s.draws
  | load image =>
    obtain ⟨hload | rfl, -⟩ := perform_load_cases h
    · exact load_keepsInv hinv hload
    · exact hinv
  | step => exact step_keepsInv hinv h
  | tick =>
    cases h
    exact tick_keepsInv hinv
  | setKeys k | snapshot =>
    cases h
    exact hinv

/-! The statements about the invariant. -/

/-- Settles O3: the values after a reset are inside the bounds. -/
theorem resetEstablishesInv : Obligations.ResetEstablishesInv := by
  intro s t h
  cases h
  exact reset_inv s.draws

/-- Settles O4: from what an instruction does to I, PC, the stack and memory at the advanced PC. -/
theorem stepKeepsInv : Obligations.StepKeepsInv := fun _ _ hinv h => step_keepsInv hinv h

/-- Settles O5, by induction on the operations. -/
theorem reachableStatesHaveInv : Obligations.ReachableStatesHaveInv := by
  intro s h
  induction h with
  | atReset => exact reset_inv 0
  | after o _ hperform ih => exact perform_keepsInv ih hperform

end Sys2Proof

namespace Sys2Proof

open Machine

/-! SUPPORT. Parked and stalled machines: the step answers the same state with an empty event list, and it stays parked or
stalled. -/

/-- A word that an instruction encodes to is decoded and run. -/
theorem step_of_nextEncoded {s : State} {i : Instr} (hfault : s.fault = none) (hword : NextWord s (encode i)) :
    step s = exec i (advancePc (clearOut s)) := step_of_decodes hfault hword (decodeWord_encode i)

theorem step_of_parked {s : State} (h : Parked s) : step s = .next (clearOut s) := by
  obtain ⟨hfault, nnn, hpc, hword⟩ := h
  have htarget : addressOperand nnn = s.pc := BitVec.eq_of_toNat_eq (by rw [addressOperand_toNat, hpc])
  rw [step_of_nextEncoded hfault hword]
  change Host.Outcome.next (setPc (addressOperand nnn) (advancePc (clearOut s))) = _
  rw [htarget]
  rfl

theorem step_of_stalled {s : State} (h : Stalled s) : step s = .next (clearOut s) := by
  obtain ⟨hfault, ⟨x, hword⟩, hkeys⟩ := h
  have hnone : lowestKey (advancePc (clearOut s)) = none := lowestKey_eq_none hkeys
  rw [step_of_nextEncoded hfault hword, exec_ldVxK_of_none x hnone]
  simp [rewindPc, advancePc, setPc, clearOut]

/-- Settles O56, by induction on the number of steps: being parked or stalled does not depend on the event list. -/
theorem parkedAndStalledStandStill : Obligations.ParkedAndStalledStandStill := by
  intro s n hstill
  have hstep : step s = .next (clearOut s) := hstill.elim step_of_parked step_of_stalled
  induction n generalizing s with
  | zero => exact run_succ 0 s _ hstep
  | succ n ih =>
    have hstill' : Parked (clearOut s) ∨ Stalled (clearOut s) := hstill
    rw [run_succ (n + 1) s _ hstep]
    exact ih (clearOut s) hstill' (hstill'.elim step_of_parked step_of_stalled)

end Sys2Proof

namespace Sys2Proof

open Machine

/-! SUPPORT. The instructions that access memory from I: when the range fits, what is stored and what is loaded; when it does not,
the fault (spec/43_index_memory.md R108 to R111). -/

/-! ### Ranges -/

theorem rangeFault_fits {base count : Nat} (h : count = 0 ∨ base + count ≤ 0x1000) : rangeFault base count = false := by
  rw [← Bool.not_eq_true, rangeFault_iff]
  omega

/-- A state with memory replaced reads as another at the addresses where the two memories agree. -/
theorem memRead_of_lookup_eq {s t : State} {a : Nat} (h : t.mem.lookup a = s.mem.lookup a) : memRead a t = memRead a s := by
  simp only [memRead, h]

/-- An instruction that stores bytes from I, inside memory: each byte is read back at its address, every other byte reads as
before, and memory alone changes. -/
theorem accessAtIndex_stores {access : State → Option State} {bs : List Byte} {s : State} (i : Instr)
    (haccess : access s = writeBytes (indexedAddress 0 s) bs s) (hwf : s.mem.wf = true)
    (hfits : s.index.toNat + bs.length ≤ 0x1000) :
    ∃ t, accessAtIndex bs.length i access s = .next t ∧
      (∀ k (hk : k < bs.length), memRead (indexedAddress k s) t = some bs[k]) ∧
      (∀ a, a < indexedAddress 0 s ∨ indexedAddress bs.length s ≤ a → memRead a t = memRead a s) ∧
      t = { s with mem := t.mem } := by
  obtain ⟨t, ht⟩ := writeBytes_inside (indexedAddress 0 s) bs s (.inr hfits)
  obtain ⟨hrest, -, hother, hbytes⟩ := writeBytes_spec _ bs s t ht
  refine ⟨t, accessAtIndex_completes i (rangeFault_fits (.inr hfits)) (haccess.trans ht), fun k hk => ?_, fun a ha => ?_, hrest⟩
  · rw [indexedAddress, memRead_inside t (by omega)]
    exact congrArg some (hbytes hwf k hk)
  · refine memRead_of_lookup_eq (hother a ?_)
    simp only [indexedAddress] at ha ⊢
    omega

/-- The k-th byte that `Fx55` stores is Vk. -/
theorem firstV_getElem (x : RegNum) (s : State) {z : RegNum} (h : z.toNat < (firstV x s).length) :
    (firstV x s)[z.toNat] = readV z s := by
  rw [firstV_length] at h
  exact List.getElem_of_getElem? (firstV_get x s z (by omega)) |>.2

/-- `Fx55` inside memory. -/
theorem exec_storeRegs_stores {x : RegNum} {s : State} (hwf : s.mem.wf = true) (hfits : s.index.toNat + x.toNat ≤ 0xFFF) :
    ∃ t, exec (.storeRegs x) s = .next t ∧
      (∀ z : RegNum, z.toNat ≤ x.toNat → memRead (indexedAddress z.toNat s) t = some (readV z s)) ∧
      (∀ a, a < indexedAddress 0 s ∨ indexedAddress x.toNat s < a → memRead a t = memRead a s) ∧
      t = { s with mem := t.mem } := by
  obtain ⟨t, ht, hbytes, hother, hrest⟩ := accessAtIndex_stores (access := storeFirstV x) (bs := firstV x s) (.storeRegs x)
    rfl hwf (by rw [firstV_length]; omega)
  rw [firstV_length] at ht hother
  refine ⟨t, (exec_storeRegs x s).trans ht, fun z hz => ?_, fun a ha => hother a ?_, hrest⟩
  · have hlength : z.toNat < (firstV x s).length := by rw [firstV_length]; omega
    rw [hbytes z.toNat hlength, firstV_getElem]
  · simp only [indexedAddress] at ha ⊢
    omega

/-- The accesses of `Fx65` inside memory load each byte of the range. -/
theorem loadFirstV_inside {x : RegNum} {s : State} (hfits : s.index.toNat + x.toNat ≤ 0xFFF) :
    loadFirstV x s =
      some (writeVFrom 0 ((List.range (x.toNat + 1)).map fun k => s.mem.lookup (indexedAddress 0 s + k)) s) := by
  have hrange : indexedAddress 0 s + (x.toNat + 1) ≤ 0x1000 := by rw [indexedAddress]; omega
  rw [loadFirstV, readBytes_inside _ _ s (.inr hrange)]

/-! ### A range that does not fit -/

/-- The fault of the spec is the model's `raise` (spec/60_exceptions.md R152). -/
theorem raise_eq_faultedState (c : FaultCause) (i : Instr) (d : Option Word) (s : State) :
    raise c i d s = .next (faultedState (s.pc - 2) c (some (encode i)) d s) := rfl

/-- A number that is the value of an instruction's word is that word. -/
theorem encode_eq_ofNat {i : Instr} {k : Nat} (h : (encode i).toNat = k) : encode i = BitVec.ofNat 16 k := by
  rw [← h, BitVec.ofNat_toNat, BitVec.setWidth_eq]

/-- A range beyond 0xFFF raises MemRange with the instruction's word, whatever the accesses are (spec/20_memory.md R42). -/
theorem accessAtIndex_faults {count k : Nat} {i : Instr} {s : State} (access : State → Option State) (hcount : 0 < count)
    (hbeyond : 0x1000 < s.index.toNat + count) (hword : (encode i).toNat = k) :
    accessAtIndex count i access s =
      .next (faultedState (s.pc - 2) .memRange (some (BitVec.ofNat 16 k)) (some 0x1000#16) s) := by
  rw [← encode_eq_ofNat hword]
  exact accessAtIndex_traps i access ((rangeFault_iff _ _).mpr ⟨hcount, hbeyond⟩)

/-! The statements about I and the memory transfers. -/

/-- Settles O35: the 16-bit sum wraps at a multiple of 4096, so that reducing it reduces the true sum. -/
theorem addIndexWrapsAt4096 : Obligations.AddIndexWrapsAt4096 := by
  intro x s
  obtain ⟨hindex, hrest⟩ := setIndex_spec (mod4096 (s.index + wordOperand x s)) s
  refine ⟨_, rfl, ?_, hrest⟩
  rw [hindex, mod4096_toNat, BitVec.toNat_add, wordOperand_toNat]
  omega

/-- Settles O37: the three digits are stored from I. -/
theorem decimalDigitsStored : Obligations.DecimalDigitsStored := by
  intro x s hwf hindex
  have hlength : (decimalDigits (readV x s)).length = 3 := rfl
  obtain ⟨t, ht, hbytes, hother, hrest⟩ := accessAtIndex_stores (access := storeDigits x) (bs := decimalDigits (readV x s))
    (.ldB x) rfl hwf (by omega)
  refine ⟨t, ht, hbytes 0 (by omega), hbytes 1 (by omega), hbytes 2 (by omega), fun a ha => hother a ?_, hrest⟩
  simp only [hlength, indexedAddress] at ha ⊢
  omega

/-- Settles O38: V0 to Vx are stored from I. -/
theorem registersStoredAtI : Obligations.RegistersStoredAtI := fun _ _ hwf hfits => exec_storeRegs_stores hwf hfits

/-- Settles O39: the loaded bytes are written to V0 to Vx, the k-th to Vk. -/
theorem registersLoadedFromI : Obligations.RegistersLoadedFromI := by
  intro x s hfits
  refine ⟨_, accessAtIndex_completes _ (rangeFault_fits (.inr (by omega))) (loadFirstV_inside hfits), fun z hz => ?_,
    fun z hz => ?_, writeVFrom_eq 0 _ s⟩
  · rw [readV_writeVFrom 0 _ s (by simp; omega), memRead_inside s (by rw [indexedAddress]; omega)]
    simp [List.getElem?_range (show z.toNat < x.toNat + 1 by omega), indexedAddress]
  · rw [readV_writeVFrom 0 _ s (by simp; omega)]
    simp [List.getElem?_eq_none (l := List.range (x.toNat + 1)) (i := z.toNat) (by simp; omega)]

/-- Settles O40: each of the four accesses beyond 0xFFF, with the word of its instruction. -/
theorem memoryRangeFaults : Obligations.MemoryRangeFaults := by
  intro x y n s
  have hldB : (encode (.ldB x)).toNat = 0xF033 + x.toNat * 256 := packByte_toNat_fixedFirst 0xF x 0x33
  have hstore : (encode (.storeRegs x)).toNat = 0xF055 + x.toNat * 256 := packByte_toNat_fixedFirst 0xF x 0x55
  have hload : (encode (.loadRegs x)).toNat = 0xF065 + x.toNat * 256 := packByte_toNat_fixedFirst 0xF x 0x65
  have hdrw : (encode (.drw x y n)).toNat = 0xD000 + x.toNat * 256 + y.toNat * 16 + n.toNat := packNibbles_toNat 0xD x y n
  refine ⟨fun h => ?_, fun h => ?_, fun h => ?_, fun hn h => ?_⟩
  · exact accessAtIndex_faults _ (by omega) (by omega) hldB
  · exact accessAtIndex_faults _ (by omega) (by omega) hstore
  · exact accessAtIndex_faults _ (by omega) (by omega) hload
  · exact accessAtIndex_faults _ hn h hdrw

/-- Settles O57: PC stays at I while V0 and V1 are stored there, so that they are the word of the next step. -/
theorem storeIsSeenByNextFetch : Obligations.StoreIsSeenByNextFetch := by
  intro x s i hfault hwf hindex hx hfits hdecode
  obtain ⟨t, ht, hbytes, -, hrest⟩ := exec_storeRegs_stores hwf hfits
  have hpc : t.pc.toNat = s.index.toNat := by rw [hrest, hindex]
  have hfault' : t.fault = none := by rw [hrest, hfault]
  have hword : NextWord t (BitVec.ofNat 16 ((readV 0#4 s).toNat * 256 + (readV 1#4 s).toNat)) := by
    rw [NextWord, hpc]
    refine ⟨readV 0#4 s, readV 1#4 s, hbytes 0 (Nat.zero_le _), hbytes 1 hx, ?_⟩
    rw [BitVec.toNat_ofNat, Nat.mod_eq_of_lt (by omega)]
  exact ⟨t, ht, step_of_decodes hfault' hword hdecode⟩

end Sys2Proof

namespace Sys2Proof

open Machine

/-! SUPPORT. The drawing loops as one list of positions: which pixels they flip, and when a lit pixel is met (spec/44_display.md
R116 to R118). -/

/-! ### Positions -/

/-- Two positions, row first, address the same pixel: each coordinate is reduced independently (spec/44_display.md R117). -/
def SamePixel (p q : Nat × Nat) : Prop := p.1 % 32 = q.1 % 32 ∧ p.2 % 64 = q.2 % 64

theorem SamePixel.symm {p q : Nat × Nat} (h : SamePixel p q) : SamePixel q p := ⟨h.1.symm, h.2.symm⟩

theorem SamePixel.trans {p q r : Nat × Nat} (h : SamePixel p q) (h' : SamePixel q r) : SamePixel p r :=
  ⟨h.1.trans h'.1, h.2.trans h'.2⟩

/-- Plot every position of a list, in order. -/
def plotAll (ps : List (Nat × Nat)) (p : Display × Bool) : Display × Bool := ps.foldl (fun p q => plot q.1 q.2 p) p

/-- No two positions of the list address the same pixel. -/
def Distinct (ps : List (Nat × Nat)) : Prop := ps.Pairwise fun p q => ¬SamePixel p q

theorem pixel_flipPixel_same (d : Display) {p q : Nat × Nat} (h : SamePixel p q) :
    pixel (flipPixel d p.1 p.2) q.1 q.2 = !pixel d q.1 q.2 :=
  (pixel_flipPixel d p.1 p.2 q.1 q.2).trans (if_pos h)

theorem pixel_flipPixel_other (d : Display) {p q : Nat × Nat} (h : ¬SamePixel p q) :
    pixel (flipPixel d p.1 p.2) q.1 q.2 = pixel d q.1 q.2 :=
  (pixel_flipPixel d p.1 p.2 q.1 q.2).trans (if_neg h)

theorem plotAll_cons (p : Nat × Nat) (ps : List (Nat × Nat)) (d : Display) (c : Bool) :
    plotAll (p :: ps) (d, c) = plotAll ps (flipPixel d p.1 p.2, c || pixel d p.1 p.2) := rfl

/-- A pixel that no position addresses is left alone. -/
theorem pixel_plotAll_other {ps : List (Nat × Nat)} {q : Nat × Nat} (hnone : ∀ p ∈ ps, ¬SamePixel p q) (d : Display)
    (c : Bool) : pixel (plotAll ps (d, c)).1 q.1 q.2 = pixel d q.1 q.2 := by
  induction ps generalizing d c with
  | nil => rfl
  | cons p ps ih =>
    rw [List.forall_mem_cons] at hnone
    rw [plotAll_cons, ih hnone.2, pixel_flipPixel_other d hnone.1]

/-- A pixel that one of distinct positions addresses is flipped, once. -/
theorem pixel_plotAll_same {ps : List (Nat × Nat)} (hdistinct : Distinct ps) {p q : Nat × Nat} (hp : p ∈ ps)
    (hpq : SamePixel p q) (d : Display) (c : Bool) : pixel (plotAll ps (d, c)).1 q.1 q.2 = !pixel d q.1 q.2 := by
  induction ps generalizing d c with
  | nil => cases hp
  | cons r ps ih =>
    obtain ⟨hr, hps⟩ := List.pairwise_cons.mp hdistinct
    rw [plotAll_cons]
    rcases List.mem_cons.mp hp with rfl | hp
    · rw [pixel_plotAll_other (fun a ha hsame => hr a ha (hpq.trans hsame.symm)),
        pixel_flipPixel_same d hpq]
    · rw [ih hps hp, pixel_flipPixel_other d fun hsame => hr p hp (hsame.trans hpq.symm)]

/-- Distinct positions meet a lit pixel exactly where one was lit before the first is plotted. -/
theorem collision_plotAll {ps : List (Nat × Nat)} (hdistinct : Distinct ps) (d : Display) (c : Bool) :
    (plotAll ps (d, c)).2 = true ↔ c = true ∨ ∃ p ∈ ps, pixel d p.1 p.2 = true := by
  induction ps generalizing d c with
  | nil => simp [plotAll]
  | cons r ps ih =>
    obtain ⟨hr, hps⟩ := List.pairwise_cons.mp hdistinct
    have hkept : ∀ p ∈ ps, pixel (flipPixel d r.1 r.2) p.1 p.2 = pixel d p.1 p.2 := fun p hp =>
      pixel_flipPixel_other d (hr p hp)
    rw [plotAll_cons, ih hps, Bool.or_eq_true, List.exists_mem_cons_iff, or_assoc]
    have hlater : (∃ p ∈ ps, pixel (flipPixel d r.1 r.2) p.1 p.2 = true) ↔ ∃ p ∈ ps, pixel d p.1 p.2 = true :=
      exists_congr fun p => and_congr_right fun hp => by rw [hkept p hp]
    rw [hlater]

/-! ### The positions of a sprite -/

/-- The positions of the set bits of one sprite row, at row `row` of the buffer, over the column offsets given. -/
def rowPositions (vx row : Nat) (byte : Byte) (cs : List Nat) : List (Nat × Nat) :=
  (cs.filter (spriteBit byte)).map fun c => (row, vx + c)

/-- The positions of the set bits of a sprite whose first row is at row `row` of the buffer. -/
def spritePositions (vx : Nat) : Nat → List Byte → List (Nat × Nat)
  | _, [] => []
  | row, byte :: bytes => rowPositions vx row byte columnOffsets ++ spritePositions vx (row + 1) bytes

theorem plotColumns_eq_plotAll (vx row : Nat) (byte : Byte) (cs : List Nat) (p : Display × Bool) :
    plotColumns vx row byte cs p = plotAll (rowPositions vx row byte cs) p := by
  induction cs generalizing p with
  | nil => rfl
  | cons c cs ih =>
    rw [plotColumns, ih]
    cases hbit : spriteBit byte c <;> simp [rowPositions, plotAll, hbit]

theorem plotRows_eq_plotAll (vx row : Nat) (bytes : List Byte) (p : Display × Bool) :
    plotRows vx row bytes p = plotAll (spritePositions vx row bytes) p := by
  induction bytes generalizing row p with
  | nil => rfl
  | cons byte bytes ih =>
    rw [plotRows, ih, plotColumns_eq_plotAll, spritePositions, plotAll, plotAll, plotAll, List.foldl_append]

theorem mem_rowPositions {vx row : Nat} {byte : Byte} {cs : List Nat} {q : Nat × Nat} :
    q ∈ rowPositions vx row byte cs ↔ ∃ c ∈ cs, spriteBit byte c = true ∧ q = (row, vx + c) := by
  simp only [rowPositions, List.mem_map, List.mem_filter, and_assoc, eq_comm (a := q)]

theorem mem_columnOffsets {c : Nat} : c ∈ columnOffsets ↔ c < 8 := by
  rw [show columnOffsets = List.range 8 from rfl, List.mem_range]

/-- A position of a sprite is a set bit of one of its rows (spec/44_display.md R116). -/
theorem mem_spritePositions {vx row : Nat} {bytes : List Byte} {q : Nat × Nat} :
    q ∈ spritePositions vx row bytes ↔
      ∃ r c byte, bytes[r]? = some byte ∧ c < 8 ∧ spriteBit byte c = true ∧ q = (row + r, vx + c) := by
  induction bytes generalizing row with
  | nil => simp [spritePositions]
  | cons b bytes ih =>
    rw [spritePositions, List.mem_append, mem_rowPositions, ih]
    constructor
    · rintro (⟨c, hc, hbit, rfl⟩ | ⟨r, c, byte, hbyte, hc, hbit, rfl⟩)
      · exact ⟨0, c, b, rfl, mem_columnOffsets.mp hc, hbit, rfl⟩
      · exact ⟨r + 1, c, byte, hbyte, hc, hbit, by rw [Nat.add_assoc, Nat.add_comm 1]⟩
    · rintro ⟨_ | r, c, byte, hbyte, hc, hbit, rfl⟩
      · cases hbyte
        exact .inl ⟨c, mem_columnOffsets.mpr hc, hbit, rfl⟩
      · exact .inr ⟨r, c, byte, hbyte, hc, hbit, by rw [Nat.add_assoc, Nat.add_comm 1]⟩

theorem rowPositions_distinct (vx row : Nat) (byte : Byte) : Distinct (rowPositions vx row byte columnOffsets) := by
  have hoffsets : columnOffsets.Pairwise fun a b => a < b ∧ b < 8 := by decide
  refine List.pairwise_map.mpr ((hoffsets.filter _).imp fun hlt hsame => ?_)
  have hcol := hsame.2
  dsimp only at hcol
  omega

/-- A sprite of at most 32 rows addresses every pixel at most once. -/
theorem spritePositions_distinct (vx row : Nat) (bytes : List Byte) (hrows : bytes.length ≤ 32) :
    Distinct (spritePositions vx row bytes) := by
  induction bytes generalizing row with
  | nil => exact List.Pairwise.nil
  | cons b bytes ih =>
    rw [List.length_cons] at hrows
    refine List.pairwise_append.mpr ⟨rowPositions_distinct vx row b, ih (row + 1) (by omega), ?_⟩
    intro p hp q hq hsame
    obtain ⟨c, -, -, rfl⟩ := mem_rowPositions.mp hp
    obtain ⟨r, c', byte, hbyte, -, -, rfl⟩ := mem_spritePositions.mp hq
    obtain ⟨hr, -⟩ := List.getElem?_eq_some_iff.mp hbyte
    have hrow := hsame.1
    dsimp only at hrow
    omega

/-! ### A draw -/

/-- The bytes of the sprite at I. -/
def spriteBytes (n : Nibble) (s : State) : List Byte :=
  (List.range n.toNat).map fun k => s.mem.lookup (indexedAddress 0 s + k)

@[simp] theorem spriteBytes_length (n : Nibble) (s : State) : (spriteBytes n s).length = n.toNat := by simp [spriteBytes]

theorem spriteBytes_getElem? {n : Nibble} {s : State} {r : Nat} {byte : Byte}
    (hfits : n.toNat = 0 ∨ s.index.toNat + n.toNat ≤ 0x1000) :
    (spriteBytes n s)[r]? = some byte ↔ r < n.toNat ∧ memRead (s.index.toNat + r) s = some byte := by
  by_cases hr : r < n.toNat
  · rw [memRead_inside s (by omega)]
    simp [spriteBytes, indexedAddress, hr]
  · simp [hr]

/-- The positions that `Dxyn` draws at. -/
def drawPositions (x y : RegNum) (n : Nibble) (s : State) : List (Nat × Nat) :=
  spritePositions (readV x s).toNat (readV y s).toNat (spriteBytes n s)

theorem drawPositions_distinct (x y : RegNum) (n : Nibble) (s : State) : Distinct (drawPositions x y n s) :=
  spritePositions_distinct _ _ _ (by rw [spriteBytes_length]; omega)

/-- The pixels that the sprite addresses are the reduced positions. -/
theorem spriteAddresses_iff {x y : RegNum} {n : Nibble} {s : State} {row col : Nat}
    (hfits : n.toNat = 0 ∨ s.index.toNat + n.toNat ≤ 0x1000) :
    SpriteAddresses s x y n row col ↔ ∃ q ∈ drawPositions x y n s, row = q.1 % 32 ∧ col = q.2 % 64 := by
  constructor
  · rintro ⟨r, c, hr, hc, ⟨byte, hbyte, hbit⟩, hrow, hcol⟩
    exact ⟨_, mem_spritePositions.mpr ⟨r, c, byte, (spriteBytes_getElem? hfits).mpr ⟨hr, hbyte⟩, hc, hbit, rfl⟩, hrow, hcol⟩
  · rintro ⟨q, hq, hrow, hcol⟩
    obtain ⟨r, c, byte, hbyte, hc, hbit, rfl⟩ := mem_spritePositions.mp hq
    obtain ⟨hr, hread⟩ := (spriteBytes_getElem? hfits).mp hbyte
    exact ⟨r, c, hr, hc, ⟨byte, hread, hbit⟩, hrow, hcol⟩

/-- On the screen, a pixel is addressed where a position addresses it. -/
theorem spriteAddresses_iff_samePixel {x y : RegNum} {n : Nibble} {s : State} {row col : Nat}
    (hfits : n.toNat = 0 ∨ s.index.toNat + n.toNat ≤ 0x1000) (hrow : row < 32) (hcol : col < 64) :
    SpriteAddresses s x y n row col ↔ ∃ q ∈ drawPositions x y n s, SamePixel q (row, col) := by
  simp only [spriteAddresses_iff hfits, SamePixel, Nat.mod_eq_of_lt hrow, Nat.mod_eq_of_lt hcol, eq_comm]

/-- A lit pixel is addressed exactly where a position meets one. -/
theorem spriteAddresses_lit_iff {x y : RegNum} {n : Nibble} {s : State}
    (hfits : n.toNat = 0 ∨ s.index.toNat + n.toNat ≤ 0x1000) (d : Display) :
    (∃ row col, SpriteAddresses s x y n row col ∧ pixel d row col = true) ↔
      ∃ q ∈ drawPositions x y n s, pixel d q.1 q.2 = true := by
  simp only [spriteAddresses_iff hfits]
  constructor
  · rintro ⟨_, _, ⟨q, hq, rfl, rfl⟩, hlit⟩
    exact ⟨q, hq, pixel_mod d q.1 q.2 ▸ hlit⟩
  · rintro ⟨q, hq, hlit⟩
    exact ⟨_, _, ⟨q, hq, rfl, rfl⟩, (pixel_mod d q.1 q.2).trans hlit⟩

/-- The buffer and the collision that `Dxyn` leaves. -/
theorem drawSprite_eq_plotAll (x y : RegNum) (n : Nibble) (s : State) :
    drawSprite (readV x s) (readV y s) (spriteBytes n s) s.fb = plotAll (drawPositions x y n s) (s.fb, false) :=
  plotRows_eq_plotAll _ _ _ _

theorem exec_drw_inside {x y : RegNum} {n : Nibble} {s : State} (hfits : n.toNat = 0 ∨ s.index.toNat + n.toNat ≤ 0x1000) :
    exec (.drw x y n) s = .next (drawn x y (spriteBytes n s) s) := by
  have hread : readBytes (indexedAddress 0 s) n.toNat s = some (spriteBytes n s) := readBytes_inside _ _ s hfits
  refine accessAtIndex_completes _ (rangeFault_fits hfits) ?_
  rw [readAndDraw, hread]

theorem drawn_fb (x y : RegNum) (n : Nibble) (s : State) :
    (drawn x y (spriteBytes n s) s).fb = (plotAll (drawPositions x y n s) (s.fb, false)).1 := by
  rw [← drawSprite_eq_plotAll]
  rfl

theorem readV_regF_drawn (x y : RegNum) (n : Nibble) (s : State) :
    readV regF (drawn x y (spriteBytes n s) s) = flagByte (plotAll (drawPositions x y n s) (s.fb, false)).2 := by
  rw [← drawSprite_eq_plotAll]
  exact readV_writeV_same regF _ _

theorem readV_drawn_other {z : RegNum} (hz : z ≠ regF) (x y : RegNum) (bs : List Byte) (s : State) :
    readV z (drawn x y bs s) = readV z s := readV_writeV_other _ _ hz

/-- Two states with the same memory, I and place draw at the same pixels. -/
theorem spriteAddresses_congr {s t : State} {x y : RegNum} (n : Nibble) (row col : Nat) (hmem : t.mem = s.mem)
    (hindex : t.index = s.index) (hx : readV x t = readV x s) (hy : readV y t = readV y s) :
    SpriteAddresses t x y n row col ↔ SpriteAddresses s x y n row col := by
  simp only [SpriteAddresses, SpriteSet, memRead, hmem, hindex, hx, hy]

/-! The statements about the display. -/

/-- Settles O41: the buffer is replaced by the blank one. -/
theorem clearBlanksDisplay : Obligations.ClearBlanksDisplay :=
  fun s => ⟨setFb blankDisplay s, rfl, pixel_blank, rfl⟩

/-- Settles O42: the draw plots the sprite's positions, which are distinct pixels, and its flag is their collision. -/
theorem drawFlipsAddressedPixels : Obligations.DrawFlipsAddressedPixels := by
  intro x y n s hfits
  have hdistinct := drawPositions_distinct x y n s
  have hcollides : (plotAll (drawPositions x y n s) (s.fb, false)).2 = true ↔
      ∃ row col, SpriteAddresses s x y n row col ∧ pixel s.fb row col = true := by
    rw [collision_plotAll hdistinct, spriteAddresses_lit_iff hfits]
    simp
  refine ⟨_, exec_drw_inside hfits, fun row col hrow hcol haddr => ?_, fun row col hrow hcol haddr => ?_, fun hlit => ?_,
    fun hdark => ?_, fun z hz => readV_drawn_other hz _ _ _ _, drawn_eq x y _ s⟩
  · obtain ⟨q, hq, hsame⟩ := (spriteAddresses_iff_samePixel hfits hrow hcol).mp haddr
    rw [drawn_fb]
    exact pixel_plotAll_same hdistinct hq hsame s.fb false
  · rw [drawn_fb]
    exact pixel_plotAll_other (q := (row, col))
      (fun q hq hsame => haddr ((spriteAddresses_iff_samePixel hfits hrow hcol).mpr ⟨q, hq, hsame⟩)) s.fb false
  · rw [readV_regF_drawn, hcollides.mpr hlit]
    rfl
  · rw [readV_regF_drawn, Bool.eq_false_iff.mpr fun h => hdark (hcollides.mp h)]
    rfl

/-- Settles O43: the second draw addresses the pixels of the first, so that each is flipped twice; on a clear buffer they are all
lit when the second draw meets them. -/
theorem drawTwiceRestoresDisplay : Obligations.DrawTwiceRestoresDisplay := by
  intro x y n s hx hy hfits
  obtain ⟨t, ht, hflip, hkeep, -, -, hregs, hrest⟩ := drawFlipsAddressedPixels x y n s hfits
  have hmem : t.mem = s.mem := by rw [hrest]
  have hindex : t.index = s.index := by rw [hrest]
  obtain ⟨u, hu, hflip', hkeep', hlit, hdark, -, -⟩ := drawFlipsAddressedPixels x y n t (hindex ▸ hfits)
  have haddr : ∀ row col, SpriteAddresses t x y n row col ↔ SpriteAddresses s x y n row col := fun row col =>
    spriteAddresses_congr n row col hmem hindex (hregs x hx) (hregs y hy)
  refine ⟨t, u, ht, hu, display_ext fun row col hrow hcol => ?_, fun hblank => ?_⟩
  · by_cases h : SpriteAddresses s x y n row col
    · rw [hflip' row col hrow hcol ((haddr row col).mpr h), hflip row col hrow hcol h, Bool.not_not]
    · rw [hkeep' row col hrow hcol (mt (haddr row col).mp h), hkeep row col hrow hcol h]
  · constructor
    · intro hflag
      by_contra hnone
      have hzero : readV regF u = 0 := hdark fun ⟨row, col, h, _⟩ => by
        obtain ⟨r, c, hr, hc, hset, -⟩ := (haddr row col).mp h
        exact hnone ⟨r, c, hr, hc, hset⟩
      rw [hzero] at hflag
      cases hflag
    · rintro ⟨r, c, hr, hc, hset⟩
      have h : SpriteAddresses s x y n _ _ := ⟨r, c, hr, hc, hset, rfl, rfl⟩
      refine hlit ⟨_, _, (haddr _ _).mpr h, ?_⟩
      rw [hflip _ _ (Nat.mod_lt _ (by decide)) (Nat.mod_lt _ (by decide)) h, hblank, Bool.not_false]

end Sys2Proof

namespace Sys2Proof

open Machine

/-! SUPPORT. The timers: what a tick and any number of ticks do, and that an instruction carries the sound timer along unread. -/

/-! ### Ticks -/

/-- A timer counts down with a floor at 0 (spec/60_exceptions.md R160). -/
@[simp] theorem countDown_toNat (b : Byte) : (countDown b).toNat = b.toNat - 1 := by
  unfold countDown
  split
  next h => rw [h]; rfl
  next h => bv_omega

/-- Everything a tick does. -/
theorem tick_eq (s : State) : tick s =
    { s with dt := countDown s.dt, st := countDown s.st, out := if s.st.toNat = 1 then [.toneStop] else [] } := by
  have hone : s.st = 1 ↔ s.st.toNat = 1 := by rw [BitVec.toNat_eq]; rfl
  unfold tick
  by_cases h : s.st = 1
  · rw [if_pos h, if_pos (hone.mp h)]; rfl
  · rw [if_neg h, if_neg (mt hone.mpr h)]; rfl

theorem ticks_dt (k : Nat) (s : State) : (ticks k s).dt.toNat = s.dt.toNat - k := by
  induction k generalizing s with
  | zero => rfl
  | succ k ih => rw [ticks, ih, tick_eq, countDown_toNat, Nat.sub_sub, Nat.add_comm 1]

theorem ticks_st (k : Nat) (s : State) : (ticks k s).st.toNat = s.st.toNat - k := by
  induction k generalizing s with
  | zero => rfl
  | succ k ih => rw [ticks, ih, tick_eq, countDown_toNat, Nat.sub_sub, Nat.add_comm 1]

/-! ### The shared operations carry the sound timer along -/

theorem memWrite_setSt (b : Byte) (a : Nat) (c : Byte) (s : State) :
    memWrite a c (setSt b s) = (memWrite a c s).map (setSt b) := by
  unfold memWrite
  split <;> rfl

theorem writeBytes_setSt (b : Byte) (base : Nat) (bs : List Byte) (s : State) :
    writeBytes base bs (setSt b s) = (writeBytes base bs s).map (setSt b) := by
  induction bs generalizing base s with
  | nil => rfl
  | cons c bs ih =>
    rw [writeBytes, writeBytes, memWrite_setSt]
    cases memWrite base c s with
    | none => rfl
    | some t => exact ih (base + 1) t

theorem writeVFrom_setSt (b : Byte) (k : Nat) (bs : List Byte) (s : State) :
    writeVFrom k bs (setSt b s) = setSt b (writeVFrom k bs s) := by
  induction bs generalizing k s with
  | nil => rfl
  | cons c bs ih => exact ih (k + 1) (writeV (BitVec.ofNat 4 k) c s)

theorem push_setSt (b : Byte) (a : Word) (s : State) : push a (setSt b s) = (push a s).map (setSt b) := by
  rcases push_cases a s with ⟨hsp, e⟩ | ⟨hsp, e⟩ <;> rw [e]
  · exact dif_pos hsp
  · exact dif_neg (by rw [setSt_sp]; omega)

theorem pop_setSt (b : Byte) (s : State) : pop (setSt b s) = (pop s).map (Prod.map id (setSt b)) := by
  rcases pop_cases s with ⟨hsp, e⟩ | ⟨hsp, e⟩ <;> rw [e]
  · exact dif_pos hsp
  · exact dif_neg (by rw [setSt_sp]; omega)

theorem skipIf_setSt (b : Byte) (c : Bool) (s : State) : skipIf c (setSt b s) = setSt b (skipIf c s) := by
  cases c <;> rfl

theorem loadFirstV_setSt (b : Byte) (x : RegNum) (s : State) :
    loadFirstV x (setSt b s) = (loadFirstV x s).map (setSt b) := by
  have hread : readBytes (indexedAddress 0 (setSt b s)) (x.toNat + 1) (setSt b s) =
      readBytes (indexedAddress 0 s) (x.toNat + 1) s := readBytes_congr _ _ rfl
  rw [loadFirstV, loadFirstV, hread]
  cases readBytes (indexedAddress 0 s) (x.toNat + 1) s with
  | none => rfl
  | some bs => exact congrArg some (writeVFrom_setSt b 0 bs s)

theorem readAndDraw_setSt (b : Byte) (x y : RegNum) (n : Nibble) (s : State) :
    readAndDraw x y n (setSt b s) = (readAndDraw x y n s).map (setSt b) := by
  have hread : readBytes (indexedAddress 0 (setSt b s)) n.toNat (setSt b s) =
      readBytes (indexedAddress 0 s) n.toNat s := readBytes_congr _ _ rfl
  rw [readAndDraw, readAndDraw, hread]
  cases readBytes (indexedAddress 0 s) n.toNat s <;> rfl

/-- An access from I carries the sound timer along where its reads and writes do. -/
theorem accessAtIndex_setSt {b : Byte} {access : State → Option State} {s : State}
    (haccess : access (setSt b s) = (access s).map (setSt b)) (count : Nat) (i : Instr) :
    accessAtIndex count i access (setSt b s) = mapNext (setSt b) (accessAtIndex count i access s) := by
  rw [accessAtIndex, accessAtIndex, setSt_index, haccess]
  split_ifs
  · rfl
  · cases access s <;> rfl

/-! ### Every instruction but Fx18 -/

/-- An instruction that does not write the sound timer carries any value of it along and does everything else as it would with
another value (spec/45_keys_timers.md section 3). -/
theorem exec_setSt {i : Instr} (hsound : (effects i).sound = false) (b : Byte) (s : State) :
    exec i (setSt b s) = mapNext (setSt b) (exec i s) := by
  cases i with
  | ldStVx x => cases hsound
  | ret =>
    simp only [exec, execRet, pop_setSt]
    cases pop s <;> rfl
  | call nnn =>
    simp only [exec, execCall, setSt_pc, push_setSt]
    cases push s.pc s <;> rfl
  | skp x | sknp x =>
    have hkey : keyOperand x (setSt b s) = keyOperand x s := rfl
    simp only [exec, execSkp, execSknp, hkey]
    cases keyOperand x s with
    | none => rfl
    | some k => exact congrArg Host.Outcome.next (skipIf_setSt b _ s)
  | ldVxK x =>
    have hkey : lowestKey (setSt b s) = lowestKey s := rfl
    simp only [exec, execLdVxK, hkey]
    cases lowestKey s <;> rfl
  | drw x y n => exact accessAtIndex_setSt (readAndDraw_setSt b x y n s) _ _
  | ldB x | storeRegs x => exact accessAtIndex_setSt (writeBytes_setSt b _ _ s) _ _
  | loadRegs x => exact accessAtIndex_setSt (loadFirstV_setSt b x s) _ _
  | seImm x nn | sneImm x nn => exact congrArg Host.Outcome.next (skipIf_setSt b _ s)
  | seReg x y | sneReg x y => exact congrArg Host.Outcome.next (skipIf_setSt b _ s)
  | _ => rfl

/-! The statements about the timers. -/

/-- Settles O48: the sound timer is replaced alone, and the tone is that it is above 0. -/
theorem soundTimerSetDrivesTone : Obligations.SoundTimerSetDrivesTone := by
  intro x s
  refine ⟨setSt (readV x s) s, rfl, rfl, ?_⟩
  simp [tone, Nat.pos_iff_ne_zero, BitVec.toNat_eq]

/-- Settles O49: one tick field by field, and `k` ticks by induction. -/
theorem tickCountsTimersDown : Obligations.TickCountsTimersDown := by
  refine fun s => ⟨⟨tick s, rfl, ?_, ?_, ?_⟩, fun k => ⟨ticks_dt k s, ticks_st k s⟩⟩
  · exact ticks_dt 1 s
  · exact ticks_st 1 s
  · rw [tick_eq]

/-- Settles O58: Fx18 replaces the timer, and every other instruction carries it along. -/
theorem soundTimerIsNeverRead : Obligations.SoundTimerIsNeverRead := by
  refine fun i s b => ⟨fun hsound => exec_setSt hsound b s, fun hsound => ?_⟩
  cases i
  case ldStVx x => rfl
  all_goals cases hsound

end Sys2Proof

namespace Sys2Proof

open Machine

/-! SUPPORT. The reset and the one use of load: what memory reads as after each, and that once load is closed it stays closed. -/

/-! ### Boot memory -/

theorem initialByte_outsideFont {a : Nat} (h : a < 0x050 ∨ 0x09F < a) : initialByte a = 0 := by
  have hoff : ¬(Config.fontBase ≤ a ∧ a < Config.fontBase + Config.fontSize) := by
    simp only [Config.fontBase, Config.fontSize]
    omega
  rw [initialByte, if_neg hoff]

theorem mem_of_atBoot {s : State} (h : atBoot s = true) : s.mem = [] := by
  obtain ⟨k, d, e, rfl⟩ := (atBoot_iff s).mp h
  rfl

theorem pc_of_atBoot {s : State} (h : atBoot s = true) : s.pc = 0x200 := by
  obtain ⟨k, d, e, rfl⟩ := (atBoot_iff s).mp h
  rfl

theorem loaded_of_atBoot {s : State} (h : atBoot s = true) : s.loaded = false := by
  obtain ⟨k, d, e, rfl⟩ := (atBoot_iff s).mp h
  rfl

/-! ### Load closed -/

/-- Load is closed: one has been carried out, or the machine runs through memory that lists nothing, past the boot address. From
0x200 on such memory holds the word 0x0000 only, which is no instruction, so that PC never comes back. -/
def LoadClosed (s : State) : Prop := s.loaded = true ∨ (s.mem = [] ∧ 0x202 ≤ s.pc.toNat)

theorem atBoot_of_loadClosed {s : State} (h : LoadClosed s) : atBoot s = false := by
  by_contra hboot
  rw [Bool.not_eq_false] at hboot
  rcases h with hloaded | ⟨-, hpc⟩
  · rw [loaded_of_atBoot hboot] at hloaded
    cases hloaded
  · rw [pc_of_atBoot hboot] at hpc
    exact absurd hpc (by decide)

theorem load_refused {s : State} (h : atBoot s = false) (image : List Byte) :
    perform (.load image) s = .refused .loadOutsideBoot := by
  rcases load_cases image s with ⟨-, e⟩ | ⟨hboot, -⟩ | ⟨hboot, -⟩
  · simp only [perform, e]
  · rw [h] at hboot
    cases hboot
  · rw [h] at hboot
    cases hboot

theorem loaded_of_load {image : List Byte} {s t : State} (h : load image s = .ok t) : t.loaded = true := by
  rw [(writeBytes_spec _ _ _ _ (writeBytes_of_load h).2).1]
  rfl

/-- In memory that lists nothing, from 0x200 on, a step only goes on to the next word, or stays where nothing can be fetched. -/
theorem step_in_blank_memory {s t : State} (hmem : s.mem = []) (hpc : 0x200 ≤ s.pc.toNat) (h : step s = .next t) :
    t.mem = [] ∧ 0x202 ≤ t.pc.toNat := by
  obtain ⟨-, ⟨hout, rfl⟩ | ⟨op, hin, hop, hdone⟩⟩ := step_cases s t h
  · exact ⟨hmem, (by omega : 0x202 ≤ s.pc.toNat)⟩
  · have hzero : op = 0 := by
      rw [hop, hmem, Memory.lookup, Memory.lookup, initialByte_outsideFont (.inr (by omega)),
        initialByte_outsideFont (.inr (by omega))]
      rfl
    subst hzero
    rcases hdone with ⟨i, hdecode, -⟩ | ⟨-, rfl⟩
    · cases hdecode
    · refine ⟨hmem, ?_⟩
      change 0x202 ≤ (s.pc + 2).toNat
      bv_omega

theorem exec_loaded {i : Instr} {s t : State} (h : exec i s = .next t) : t.loaded = s.loaded := by
  rcases ends_of_exec h with hkeeps | ⟨-, c, d, -, rfl⟩
  · exact hkeeps.loaded
  · rfl

theorem step_loaded {s t : State} (h : step s = .next t) : t.loaded = s.loaded := by
  obtain ⟨-, ⟨-, rfl⟩ | ⟨op, -, -, ⟨i, -, hexec⟩ | ⟨-, rfl⟩⟩⟩ := step_cases s t h
  · rfl
  · rw [exec_loaded hexec, advancePc_loaded, clearOut_loaded]
  · rfl

/-- The first step closes load. -/
theorem loadClosed_of_firstStep {s t : State} (hboot : atBoot s = true) (h : step s = .next t) : LoadClosed t :=
  .inr (step_in_blank_memory (mem_of_atBoot hboot) (by rw [pc_of_atBoot hboot]; decide) h)

/-- Once closed, load stays closed under every operation but reset. -/
theorem perform_keepsLoadClosed {o : Operation} {s t : State} (hreset : o ≠ .reset) (hclosed : LoadClosed s)
    (h : perform o s = .next t) : LoadClosed t := by
  cases o with
  | reset => exact absurd rfl hreset
  | load image =>
    rw [load_refused (atBoot_of_loadClosed hclosed)] at h
    cases h
  | step =>
    rcases hclosed with hloaded | ⟨hmem, hpc⟩
    · exact .inl ((step_loaded h).trans hloaded)
    · exact .inr (step_in_blank_memory hmem (by omega) h)
  | tick =>
    cases h
    rw [tick_eq]
    exact hclosed
  | setKeys k | snapshot =>
    cases h
    exact hclosed

/-- A tick at boot finds both timers at 0, and so leaves the machine at boot. -/
theorem tick_atBoot {s : State} (h : atBoot s = true) : atBoot (tick s) = true := by
  obtain ⟨k, d, e, rfl⟩ := (atBoot_iff s).mp h
  exact (atBoot_iff _).mpr ⟨k, d, [], rfl⟩

theorem resetBlock_atBoot (s : State) : atBoot (resetBlock s) = true :=
  (atBoot_iff _).mpr ⟨State.reset.keys, s.draws, [], rfl⟩

theorem setKeys_atBoot (k : Vector Bool 16) {s : State} (h : atBoot s = true) : atBoot (setKeys k s) = true := by
  obtain ⟨_, d, e, rfl⟩ := (atBoot_iff s).mp h
  exact (atBoot_iff _).mpr ⟨k, d, [], rfl⟩

/-- An operation at boot leaves load open or closes it. -/
theorem perform_atBoot {o : Operation} {s t : State} (hboot : atBoot s = true) (h : perform o s = .next t) :
    atBoot t = true ∨ LoadClosed t := by
  cases o with
  | reset =>
    cases h
    exact .inl (resetBlock_atBoot s)
  | load image =>
    obtain ⟨hload | rfl, -⟩ := perform_load_cases h
    · exact .inr (.inl (loaded_of_load hload))
    · exact .inl hboot
  | step => exact .inr (loadClosed_of_firstStep hboot h)
  | tick =>
    cases h
    exact .inl (tick_atBoot hboot)
  | setKeys k =>
    cases h
    exact .inl (setKeys_atBoot k hboot)
  | snapshot =>
    cases h
    exact .inl hboot

/-- Every reachable state is at boot or has load closed: there is no third kind. -/
theorem atBoot_or_loadClosed {s : State} (h : Reachable s) : atBoot s = true ∨ LoadClosed s := by
  induction h with
  | atReset => exact .inl (resetBlock_atBoot State.reset)
  | @after s t o _ hperform ih =>
    rcases ih with hboot | hclosed
    · exact perform_atBoot hboot hperform
    · by_cases hreset : o = .reset
      · subst hreset
        cases hperform
        exact .inl (resetBlock_atBoot s)
      · exact .inr (perform_keepsLoadClosed hreset hclosed hperform)

/-! The statements about reset and load. -/

/-- Settles O2: each chosen value, and memory that lists nothing read outside the font. -/
theorem resetGivesChosenValues : Obligations.ResetGivesChosenValues := by
  intro s
  refine ⟨resetBlock s, rfl, rfl, fun k hk => ?_, rfl, rfl, fun k => ?_, rfl, rfl, fun a ha hoff => ?_⟩
  · simp [State.reset, hk]
  · simp [keyPressed, State.reset]
  · rw [memRead_resetBlock s ha, initialByte_outsideFont hoff]

/-- Settles O51: a load at boot is its byte writes when the image fits, and every other load changes nothing. -/
theorem loadPlacesImage : Obligations.LoadPlacesImage := by
  intro image s
  refine ⟨fun hboot hfits => ?_, fun hboot hlong => ?_, fun hboot => load_refused hboot image⟩
  · rcases load_cases image s with ⟨hno, -⟩ | ⟨-, hlong, -⟩ | ⟨-, -, t, hload, hwrite⟩
    · rw [hboot] at hno
      cases hno
    · omega
    · obtain ⟨hrest, -, hother, hbytes⟩ := writeBytes_spec _ _ _ _ hwrite
      have hwf : (markLoaded (clearOut s)).mem.wf = true := by
        rw [markLoaded_mem, clearOut_mem, mem_of_atBoot hboot]
        rfl
      refine ⟨t, hload, fun k hk => ?_, fun a ha => memRead_of_lookup_eq (hother a ha), hrest⟩
      rw [memRead_inside t (by omega), List.getElem?_eq_getElem hk]
      exact congrArg some (hbytes hwf k hk)
  · rcases load_cases image s with ⟨hno, -⟩ | ⟨-, -, hload⟩ | ⟨-, hfits, -⟩
    · rw [hboot] at hno
      cases hno
    · exact ⟨hload, by simp only [perform, hload]⟩
    · omega

/-- Settles O59: reset opens load, a load and the first step close it, and the closed state is kept; a reachable state that is not
at boot is closed. -/
theorem loadHasOneUse : Obligations.LoadHasOneUse := by
  refine ⟨fun s t h => ?_, fun image other s t h => ?_, fun other s t hboot h => ?_, fun o s t hreach hboot hreset h => ?_⟩
  · cases h
    exact resetBlock_atBoot s
  · exact load_refused (atBoot_of_loadClosed (.inl (loaded_of_load h))) other
  · exact load_refused (atBoot_of_loadClosed (loadClosed_of_firstStep hboot h)) other
  · have hclosed : LoadClosed s := (atBoot_or_loadClosed hreach).resolve_left (by simp [hboot])
    exact atBoot_of_loadClosed (perform_keepsLoadClosed hreset hclosed h)

end Sys2Proof

namespace Sys2Proof

open Machine

/-! SUPPORT. Transfers, skips and the call stack: the words of the two register skips, and what a call, a return and a key skip do
at each end (spec/41_flow.md, spec/45_keys_timers.md section 1). -/

/-! ### The call stack -/

/-- A call below the full stack. -/
theorem exec_call_pushes (nnn : Addr) {s : State} (hsp : s.sp.val < 16) :
    exec (.call nnn) s = .next { s with
      stack := s.stack.set s.sp.val s.pc hsp, sp := ⟨s.sp.val + 1, by omega⟩, pc := addressOperand nnn } := by
  rcases push_cases s.pc s with ⟨_, heq⟩ | ⟨hfull, -⟩
  · simp only [exec, execCall, heq, setPc]
  · omega

/-- A return with an entry in use. -/
theorem exec_ret_pops {s : State} (hsp : 0 < s.sp.val) :
    exec .ret s = .next { s with
      sp := ⟨s.sp.val - 1, by omega⟩, pc := s.stack[s.sp.val - 1]'(by omega) } := by
  rcases pop_cases s with ⟨_, heq⟩ | ⟨hempty, -⟩
  · simp only [exec, execRet, heq, setPc]
  · omega

theorem exec_call_faults (nnn : Addr) {s : State} (hsp : s.sp.val = 16) :
    exec (.call nnn) s = raise .stackOverflow (.call nnn) none s := by
  rcases push_cases s.pc s with ⟨hroom, -⟩ | ⟨-, heq⟩
  · omega
  · simp only [exec, execCall, heq]

theorem exec_ret_faults {s : State} (hsp : s.sp.val = 0) : exec .ret s = raise .stackUnderflow .ret none s := by
  rcases pop_cases s with ⟨hused, -⟩ | ⟨-, heq⟩
  · omega
  · simp only [exec, execRet, heq]

/-! ### Keys -/

/-- A key number is not masked: it is Vx where that fits, and there is none where it does not (spec/45_keys_timers.md R125). -/
theorem keyOperand_of_le {x : RegNum} {s : State} (h : (readV x s).toNat ≤ 0xF) :
    keyOperand x s = some ((readV x s).setWidth 4) := if_neg (by omega)

theorem keyOperand_of_gt {x : RegNum} {s : State} (h : 0xF < (readV x s).toNat) : keyOperand x s = none := if_pos h

/-- The latch at a key number that fits. -/
theorem keys_getElem?_of_le {b : Byte} {s : State} (h : b.toNat ≤ 0xF) :
    s.keys[b.toNat]? = some (keyPressed (b.setWidth 4) s) := by
  have hnumber : (b.setWidth 4).toNat = b.toNat := by
    rw [BitVec.toNat_setWidth, Nat.mod_eq_of_lt (by omega)]
  rw [keyPressed, Vector.getElem?_eq_getElem (by omega)]
  simp only [hnumber]

theorem exec_skp_of_le {x : RegNum} {s : State} (h : (readV x s).toNat ≤ 0xF) :
    exec (.skp x) s = .next (skipIf (keyPressed ((readV x s).setWidth 4) s) s) := by
  simp only [exec, execSkp, keyOperand_of_le h]

theorem exec_sknp_of_le {x : RegNum} {s : State} (h : (readV x s).toNat ≤ 0xF) :
    exec (.sknp x) s = .next (skipIf (!keyPressed ((readV x s).setWidth 4) s) s) := by
  simp only [exec, execSknp, keyOperand_of_le h]

/-- The detail of a KeyRange fault is the value of Vx (spec/60_exceptions.md R151). -/
theorem wordOperand_eq_ofNat (x : RegNum) (s : State) : wordOperand x s = BitVec.ofNat 16 (readV x s).toNat := by
  rw [← wordOperand_toNat, BitVec.ofNat_toNat, BitVec.setWidth_eq]

/-! ### Words with a low nibble that no instruction has -/

theorem decodeWord_lowNibble_refused {op : Word} (hf : fieldFamily op = 0x5 ∨ fieldFamily op = 0x9) (hn : fieldN op ≠ 0)
    (i : Instr) : decodeWord op ≠ .ok i := by
  intro h
  rcases hf with hf | hf
  · exact hn (decodeLowZero_eq_ok.mp (decodeWord_family5 hf ▸ h)).1
  · exact hn (decodeLowZero_eq_ok.mp (decodeWord_family9 hf ▸ h)).1

theorem decodeWord_ofNat_lowNibble_refused {f n : Nibble} {x y : RegNum} {k : Nat} (hf : f = 0x5 ∨ f = 0x9) (hn : n ≠ 0)
    (hk : (packNibbles f x y n).toNat = k) (i : Instr) : decodeWord (BitVec.ofNat 16 k) ≠ .ok i := by
  rw [← hk, BitVec.ofNat_toNat, BitVec.setWidth_eq]
  exact decodeWord_lowNibble_refused (by rwa [family_packNibbles]) (by rwa [n_packNibbles]) i

/-! The statements about control transfer and the keys. -/

/-- Settles O19: the word is the encoded jump, and the sum of 12 and 8 bits does not wrap. -/
theorem indexedJumpAddsV0 : Obligations.IndexedJumpAddsV0 := by
  intro nnn s
  have hword : (encode (.jpV0 nnn)).toNat = 0xB000 + nnn.toNat := packAddr_toNat 0xB nnn
  exact ⟨decodeWord_ofNat_of_encode hword, setPc (addressOperand nnn + wordOperand 0#4 s) s, rfl,
    indexedTarget_toNat nnn 0#4 s, rfl⟩

/-- Settles O21: with low nibble 0 the words are the encoded skips, and the decoder refuses any other low nibble. -/
theorem skipRegisterComparesVxVy : Obligations.SkipRegisterComparesVxVy := by
  intro x y s
  have hse : (encode (.seReg x y)).toNat = 0x5000 + x.toNat * 256 + y.toNat * 16 := packNibbles_toNat 0x5 x y 0
  have hsne : (encode (.sneReg x y)).toNat = 0x9000 + x.toNat * 256 + y.toNat * 16 := packNibbles_toNat 0x9 x y 0
  refine ⟨decodeWord_ofNat_of_encode hse, decodeWord_ofNat_of_encode hsne, fun n hn i => ⟨?_, ?_⟩, skipIf _ s, skipIf _ s, rfl,
    rfl, skipIf_beq _ _ s, skipIf_bne _ _ s⟩
  · exact decodeWord_ofNat_lowNibble_refused (.inl rfl) hn (packNibbles_toNat 0x5 x y n) i
  · exact decodeWord_ofNat_lowNibble_refused (.inr rfl) hn (packNibbles_toNat 0x9 x y n) i

/-- Settles O22: the entry at SP is the advanced PC, and a write of one entry leaves the others. -/
theorem callPushesAdvancedPc : Obligations.CallPushesAdvancedPc := by
  intro nnn s hsp
  refine ⟨_, exec_call_pushes nnn hsp, ?_, rfl, addressOperand_toNat nnn, fun k hk => ?_, rfl⟩
  · exact Vector.getElem?_set_self hsp
  · exact Vector.getElem?_set_ne hsp hk.symm

/-- Settles O23: the entry at the new SP becomes PC. -/
theorem returnPopsPc : Obligations.ReturnPopsPc := by
  intro s hsp
  exact ⟨_, exec_ret_pops hsp, Nat.sub_add_cancel hsp, Vector.getElem?_eq_getElem _, rfl⟩

/-- Settles O24: both stack faults, with the words of the instructions. -/
theorem stackFaultsAtBothEnds : Obligations.StackFaultsAtBothEnds := by
  refine ⟨fun nnn s hsp => ?_, fun s hsp => ?_⟩
  · have hword : (encode (.call nnn)).toNat = 0x2000 + nnn.toNat := packAddr_toNat 0x2 nnn
    rw [exec_call_faults nnn hsp, raise_eq_faultedState, encode_eq_ofNat hword]
  · rw [exec_ret_faults hsp, raise_eq_faultedState]
    rfl

/-- Settles O25: the return reads the entry that the call wrote, and SP is back where it was. -/
theorem returnUndoesCall : Obligations.ReturnUndoesCall := by
  intro nnn s p hsp
  refine ⟨_, _, exec_call_pushes nnn hsp, exec_ret_pops (Nat.succ_pos _), ?_⟩
  simp

/-- Settles O44: the skip tests the latch at the number in Vx. -/
theorem keySkipsTestLatch : Obligations.KeySkipsTestLatch := by
  intro x s hx
  refine ⟨_, _, exec_skp_of_le hx, exec_sknp_of_le hx, ?_⟩
  rw [keys_getElem?_of_le hx]
  cases keyPressed ((readV x s).setWidth 4) s <;> simp [skipIf_eq]

/-- Settles O45: no key has the number in Vx, and the fault reports the word and that number. -/
theorem keyRangeFaults : Obligations.KeyRangeFaults := by
  intro x s hx
  have hskp : (encode (.skp x)).toNat = 0xE09E + x.toNat * 256 := packByte_toNat_fixedFirst 0xE x 0x9E
  have hsknp : (encode (.sknp x)).toNat = 0xE0A1 + x.toNat * 256 := packByte_toNat_fixedFirst 0xE x 0xA1
  simp only [exec, execSkp, execSknp, keyOperand_of_gt hx, raiseKeyRange, raise_eq_faultedState, wordOperand_eq_ofNat,
    encode_eq_ofNat hskp, encode_eq_ofNat hsknp, and_self]

end Sys2Proof

namespace Sys2Proof

open Machine

/-! SUPPORT. The arithmetic and logic instructions: the value of a result and of its flag (spec/42_alu.md R94 to R102). -/

/-- A flag-writing instruction changes the register file alone: the result in Vx, the flag in VF unless VF is Vx, the other
registers kept (spec/42_alu.md R90, decision D14). -/
theorem writeFlagThenResult_spec (flag : Bool) (x : RegNum) (r : Byte) (s : State) :
    readV x (writeFlagThenResult flag x r s) = r ∧
      (x ≠ regF → readV regF (writeFlagThenResult flag x r s) = flagByte flag) ∧
      (∀ z, z ≠ x → z ≠ regF → readV z (writeFlagThenResult flag x r s) = readV z s) ∧
      writeFlagThenResult flag x r s = { s with v := (writeFlagThenResult flag x r s).v } := by
  refine ⟨?_, fun hx => ?_, fun z hz hzF => ?_, writeFlagThenResult_eq flag x r s⟩
  · rw [readV_writeFlagThenResult, if_pos rfl]
  · rw [readV_writeFlagThenResult, if_neg hx.symm, if_pos rfl]
  · rw [readV_writeFlagThenResult, if_neg hz, if_neg hzF]

/-- A flag that decides a proposition, as the byte VF receives. -/
theorem flagByte_decide (p : Prop) [Decidable p] : flagByte (decide p) = if p then 1 else 0 := by
  simp [flagByte]

/-- The difference modulo 256, from numbers. -/
theorem toNat_sub_byte (a b : Byte) : (a - b).toNat = (a.toNat + 256 - b.toNat) % 256 := by
  rw [BitVec.toNat_sub]
  omega

/-- A bit of a byte as the byte VF receives. -/
theorem flagByte_getLsbD_toNat (a : Byte) (k : Nat) : (flagByte (a.getLsbD k)).toNat = a.toNat / 2 ^ k % 2 := by
  rw [BitVec.getLsbD, Nat.testBit_eq_decide_div_mod_eq, flagByte_decide]
  rcases Nat.mod_two_eq_zero_or_one (a.toNat / 2 ^ k) with h | h <;> simp [h]

/-- A masked value is at most the mask. -/
theorem toNat_and_le_right (a b : Byte) : (a &&& b).toNat ≤ b.toNat := by
  rw [BitVec.toNat_and]
  exact Nat.and_le_right

/-! The statements about arithmetic and logic. -/

/-- Settles O29: one write of Vx. -/
theorem orWritesVxOnly : Obligations.OrWritesVxOnly := by
  intro x y s
  obtain ⟨hx, hothers, hrest⟩ := writeV_spec x (readV x s ||| readV y s) s
  exact ⟨_, rfl, fun k => by rw [hx, BitVec.getLsbD_or], hothers, hrest⟩

/-- Settles O30: the sum in Vx and the carry as the flag. -/
theorem addSetsCarry : Obligations.AddSetsCarry := by
  intro x y s
  obtain ⟨hx, hflag, hothers, hrest⟩ :=
    writeFlagThenResult_spec (carryOut (readV x s) (readV y s)) x (readV x s + readV y s) s
  exact ⟨_, rfl, by rw [hx, BitVec.toNat_add], fun hF => (hflag hF).trans (flagByte_decide _), hothers, hrest⟩

/-- Settles O31: the two differences in Vx, and no borrow as the flag. -/
theorem subtractSetsNoBorrow : Obligations.SubtractSetsNoBorrow := by
  intro x y s
  obtain ⟨hx, hflag, hothers, hrest⟩ :=
    writeFlagThenResult_spec (noBorrow (readV x s) (readV y s)) x (readV x s - readV y s) s
  obtain ⟨hx', hflag', hothers', hrest'⟩ :=
    writeFlagThenResult_spec (noBorrow (readV y s) (readV x s)) x (readV y s - readV x s) s
  exact ⟨_, _, rfl, rfl, by rw [hx, toNat_sub_byte], by rw [hx', toNat_sub_byte],
    fun hF => (hflag hF).trans (flagByte_decide _), fun hF => (hflag' hF).trans (flagByte_decide _),
    fun z hz hzF => ⟨hothers z hz hzF, hothers' z hz hzF⟩, hrest, hrest'⟩

/-- Settles O32: a shift halves or doubles Vx, and the flag is the bit at the end that it leaves. -/
theorem shiftsMoveBitToFlag : Obligations.ShiftsMoveBitToFlag := by
  intro x y z s
  obtain ⟨hx, hflag, hothers, hrest⟩ := writeFlagThenResult_spec (bitShiftedRight (readV x s)) x (readV x s >>> 1) s
  obtain ⟨hx', hflag', hothers', hrest'⟩ := writeFlagThenResult_spec (bitShiftedLeft (readV x s)) x (readV x s <<< 1) s
  refine ⟨rfl, rfl, _, _, rfl, rfl, ?_, ?_, fun hF => ?_, fun hF => ?_, fun w hw hwF => ⟨hothers w hw hwF, hothers' w hw hwF⟩,
    hrest, hrest'⟩
  · rw [hx, BitVec.toNat_ushiftRight, Nat.shiftRight_eq_div_pow]
  · rw [hx', BitVec.toNat_shiftLeft, Nat.shiftLeft_eq]
  · rw [hflag hF, bitShiftedRight, flagByte_getLsbD_toNat, Nat.pow_zero, Nat.div_one]
  · rw [hflag' hF, bitShiftedLeft, flagByte_getLsbD_toNat]
    omega

/-- Settles O33: one write of the masked free byte, the count of free bytes one higher. -/
theorem randomIsMasked : Obligations.RandomIsMasked := by
  intro x nn s
  have hword : (encode (.rnd x nn)).toNat = 0xC000 + x.toNat * 256 + nn.toNat := packByte_toNat 0xC x nn
  obtain ⟨hx, hothers, -⟩ := writeV_spec x (Config.randomByte s.draws &&& nn) (drawRandom s).2
  refine ⟨decodeWord_ofNat_of_encode hword, _, rfl, fun k => ?_, ?_, fun hnn => ?_, hothers, rfl⟩
  · exact (congrArg (BitVec.getLsbD · k) hx).trans BitVec.getLsbD_and
  · exact (congrArg BitVec.toNat hx).trans_le (toNat_and_le_right _ nn)
  · exact hx.trans (by rw [hnn]; exact BitVec.and_zero)

end Sys2Proof
